-- ==== Sys2Proof/Word.lean ====
section
/-! DEFINITION. The one word of the machine: an unsigned byte (R16, R21, R41). -/

namespace Sys2Proof

/-- An 8-bit unsigned value 0..255: a register, a memory cell, an address, an operand byte (R21, R41). -/
abbrev Byte := BitVec 8

/-- A register index 0..7, naming R0..R7 (R21). -/
abbrev RegIndex := Fin 8

end Sys2Proof
end

