-- ==== Sys2Proof/Config.lean ====
section
/-! DEFINITION. The parameters of R14 that are numbers. The opcode map (R14 row 9) is in Decode.lean. -/

namespace Sys2Proof.Config

/-- R14 rows 3 and 6: 256 memory cells, so addresses and `pc` are 0..255. -/
abbrev memorySize : Nat := 256

/-- R14 row 7, R22: the stack pointer is register 7. -/
abbrev spIndex : RegIndex := 7

/-- R14 row 7, R35: SP is 0xF4 = 244 at reset. -/
abbrev spReset : Byte := 0xF4#8

/-- R193: the entry point is address 0. -/
abbrev entryPoint : Byte := 0x00#8

/-- The value stored in R0..R6 at reset, under the mark "unwritten". R24 and R35 state no value.
DESIGN CHOICE, unsafe (log entry 1): no instruction can use it, because a read of an unwritten register
raises `UnwrittenRegister`. -/
abbrev unwrittenValue : Byte := 0x00#8

end Sys2Proof.Config
end

