-- ==== Sys2Proof/Syntax.lean ====
section
/-! DEFINITION. The thirteen instructions of R10, one constructor for each row of the opcode table (R65). -/

namespace Sys2Proof

/-- An instruction with its operand bytes as decode hands them on (R62, R63, R86).

A register operand is the whole operand byte, 0..255: a byte 8..255 decodes and raises `BadRegister` when the
instruction executes (R63), so the field is a byte and not an index. `WellFormed.lean` says which operands name
a register. -/
inductive Instr where
  /-- HLT, format F0 (R161). -/
  | hlt
  /-- RET, format F0 (R142). -/
  | ret
  /-- PUSH Ra, format F1R (R121). -/
  | push (a : Byte)
  /-- POP Ra, format F1R (R122). -/
  | pop (a : Byte)
  /-- PRN Ra, format F1R (R160). -/
  | prn (a : Byte)
  /-- CALL Ra, format F1R (R141). -/
  | call (a : Byte)
  /-- JMP Ra, format F1R (R143). -/
  | jmp (a : Byte)
  /-- JEQ Ra, format F1R (R144). -/
  | jeq (a : Byte)
  /-- JNE Ra, format F1R (R145). -/
  | jne (a : Byte)
  /-- LDI Ra,imm, format F2RI (R100). -/
  | ldi (a imm : Byte)
  /-- ADD Ra,Rb, format F2RR (R101). -/
  | add (a b : Byte)
  /-- MUL Ra,Rb, format F2RR (R102). -/
  | mul (a b : Byte)
  /-- CMP Ra,Rb, format F2RR (R103). -/
  | cmp (a b : Byte)
  deriving DecidableEq, Repr

end Sys2Proof
end

