-- ==== Sys2Proof/Machine/State.lean ====
section
/-! DEFINITION. The state of R20, field by field, and the state after reset (R35). -/

namespace Sys2Proof.Machine

/-- One general register: its value and its written/unwritten mark (R20, R24). -/
structure Reg where
  value : Byte
  written : Bool
  deriving DecidableEq, Repr

/-- The six fault kinds (R171). -/
inductive FaultKind where
  /-- Code 1: the byte at `pc` is not in the opcode map. -/
  | unknownOpcode
  /-- Code 2: an operand byte in a register role is 8..255. -/
  | badRegister
  /-- Code 3: a rule reads the value of an unwritten register. -/
  | unwrittenRegister
  /-- Code 4: PUSH or CALL with SP = 0. -/
  | stackBelowZero
  /-- Code 5: POP or RET whose new SP would be 256. -/
  | stackAboveTop
  /-- Code 6: an operand byte, a fall-through or a return address beyond address 255. -/
  | pcOutOfRange
  deriving DecidableEq, Repr

/-- `raise K(d)`: the kind and detail of a fault that a rule raises (R17). -/
structure Raise where
  kind : FaultKind
  detail : Nat
  deriving DecidableEq, Repr

/-- The fault record, its five fields (R31). -/
structure FaultRecord where
  kind : FaultKind
  code : Nat
  fpc : Byte
  opcode : Byte
  detail : Nat
  deriving DecidableEq, Repr

/-- The run state (R30). -/
inductive RunState where
  | running
  | halted
  | faulted (record : FaultRecord)
  deriving DecidableEq, Repr

/-- Memory as the cells that differ from what an unlisted address reads as, addresses strictly rising
(`Memory.wf`, `Memory.unlisted` in Ops.lean; R32). -/
abbrev Memory := List Host.Cell

/-- The architectural state between two steps: exactly the tuple of R20. SP is register 7 (R22). -/
structure State where
  regs : Vector Reg 8
  pc : Byte
  flag : Bool
  mem : Memory
  run : RunState
  out : List Byte
  deriving DecidableEq, Repr

/-- The reasons a step could stop outside the state. It has no constructor, and that is safe: every fault of the
spec is described by the spec as a change of `run` (R88), so it is a next state (log entry 2). -/
inductive Fault
  deriving DecidableEq, Repr

/-- The reasons for giving no state. -/
inductive Refusal where
  /-- Raised by an arm of `exec` whose instruction has no meaning yet (none has this arm). Safe. -/
  | notModelled (mnemonic : String)
  /-- Raised by `loadImage` for an image longer than 256 bytes: the load is not performed and the core does not
  enter `Running` (R192). Safe. -/
  | imageTooLong (length : Nat)
  deriving DecidableEq, Repr

/-- The registers at reset: R0..R6 unwritten, R7 = 0xF4 and written (R24, R35). The value under an unwritten mark
is `Config.unwrittenValue` (DESIGN CHOICE, log entry 1). -/
def resetRegs : Vector Reg 8 :=
  #v[⟨Config.unwrittenValue, false⟩, ⟨Config.unwrittenValue, false⟩, ⟨Config.unwrittenValue, false⟩,
     ⟨Config.unwrittenValue, false⟩, ⟨Config.unwrittenValue, false⟩, ⟨Config.unwrittenValue, false⟩,
     ⟨Config.unwrittenValue, false⟩, ⟨Config.spReset, true⟩]

/-- The machine right after reset and the load of an empty image: every cell 0, `Running` (R35, R191, R193; log
entry 5). A longer image is placed by `loadImage` (Boot.lean). -/
def State.reset : State where
  regs := resetRegs
  pc := Config.entryPoint
  flag := false
  mem := []
  run := .running
  out := []

end Sys2Proof.Machine
end

