-- ==== Sys2Proof/Machine/Ops.lean ====
section
/-! DEFINITION. The primitives of R17 over memory, registers, `pc`, `flag` and `out`, the stack's three limits
(R120), the PC discipline (R85, R87), and taking a fault (R88). -/

namespace Sys2Proof.Machine

/-! ### Memory (`20_memory.md`) -/

/-- What an unlisted address reads as: reset sets every cell to 0 (R32). -/
def Memory.unlisted : Byte := 0x00#8

/-- The byte at an address (R42). -/
def Memory.read : Memory → Nat → Byte
  | [], _ => Memory.unlisted
  | (k, v) :: m, addr => if addr = k then v else Memory.read m addr

/-- `m` with a cell listed in front, unless it holds what an unlisted address reads as. -/
def Memory.cons (addr : Nat) (v : Byte) (m : Memory) : Memory :=
  if v = Memory.unlisted then m else (addr, v) :: m

/-- Memory with one byte written (R43); it keeps the canonical form. -/
def Memory.write : Memory → Nat → Byte → Memory
  | [], addr, v => Memory.cons addr v []
  | (k, w) :: m, addr, v =>
    if addr < k then Memory.cons addr v ((k, w) :: m)
    else if addr = k then Memory.cons addr v m
    else (k, w) :: Memory.write m addr v

/-- The canonical form: addresses strictly rising and inside memory, and no cell equal to an unlisted one. -/
abbrev Memory.wf (m : Memory) : Prop :=
  m.Pairwise (fun c d => c.1 < d.1) ∧ ∀ c ∈ m, c.1 < Config.memorySize ∧ c.2 ≠ Memory.unlisted

/-- `MemRead(addr, 1)` (R17, R42). An address is a byte, so it is always in range (R44). -/
def State.memRead (s : State) (addr : Byte) : Byte := Memory.read s.mem addr.toNat

/-- `MemWrite(addr, 1, v)` (R17, R43). -/
def State.memWrite (s : State) (addr v : Byte) : State := { s with mem := Memory.write s.mem addr.toNat v }

/-! ### Registers -/

/-- Register i: its value and its mark. -/
def State.reg (s : State) (i : RegIndex) : Reg := s.regs[i.val]

/-- `x[i]`: reading an unwritten register raises `UnwrittenRegister(i)` (R17, R24). -/
def State.readReg (s : State) (i : RegIndex) : Except Raise Byte :=
  if (s.reg i).written then .ok (s.reg i).value else .error ⟨.unwrittenRegister, i.val⟩

/-- `x[i] <- v`: write the value and mark the register written (R17, R24). -/
def State.writeReg (s : State) (i : RegIndex) (v : Byte) : State :=
  { s with regs := s.regs.set i.val ⟨v, true⟩ }

/-- `SP` is `x[7]` (R22). -/
def State.readSp (s : State) : Except Raise Byte := s.readReg Config.spIndex

/-- `x[7] <- v` (R22). -/
def State.writeSp (s : State) (v : Byte) : State := s.writeReg Config.spIndex v

/-! ### `pc`, `flag`, `out` and the run state -/

/-- `pc <- t` (R17). -/
def State.setPc (s : State) (t : Byte) : State := { s with pc := t }

/-- `flag <- f` (R17). -/
def State.setFlag (s : State) (f : Bool) : State := { s with flag := f }

/-- `emit(v)`: append `v` to `out`, oldest first (R17, R34). -/
def State.emit (s : State) (v : Byte) : State := { s with out := s.out ++ [v] }

/-- `halt`: `run <- Halted` (R17, R161). -/
def State.halt (s : State) : State := { s with run := .halted }

/-! ### Range checks -/

/-- The operand check of R85: an operand byte beyond address 255 raises `PcOutOfRange(pc + n)`. -/
def State.operandCheck (s : State) (n : Nat) : Except Raise Unit :=
  if s.pc.toNat + n > 255 then .error ⟨.pcOutOfRange, s.pc.toNat + n⟩ else .ok ()

/-- `fallthrough(n)`: the next instruction's address, or `PcOutOfRange(pc + 1 + n)` (R87). -/
def State.fallthrough (s : State) (n : Nat) : Except Raise Byte :=
  if s.pc.toNat + 1 + n > 255 then .error ⟨.pcOutOfRange, s.pc.toNat + 1 + n⟩
  else .ok (BitVec.ofNat 8 (s.pc.toNat + 1 + n))

/-- CALL's return address `pc + 2`, or `PcOutOfRange(pc + 2)` (R141). -/
def State.returnAddress (s : State) : Except Raise Byte :=
  if s.pc.toNat + 2 > 255 then .error ⟨.pcOutOfRange, s.pc.toNat + 2⟩ else .ok (BitVec.ofNat 8 (s.pc.toNat + 2))

/-- The cell a push stores to: SP - 1, or `StackBelowZero(0)` if SP = 0 (R120). -/
def pushSlot (sp : Byte) : Except Raise Byte :=
  if sp.toNat = 0 then .error ⟨.stackBelowZero, 0⟩ else .ok (BitVec.ofNat 8 (sp.toNat - 1))

/-- The incremented stack pointer, or `StackAboveTop(p + 1)` above 255 (R120). -/
def popPointer (p : Byte) : Except Raise Byte :=
  if p.toNat + 1 > 255 then .error ⟨.stackAboveTop, p.toNat + 1⟩ else .ok (BitVec.ofNat 8 (p.toNat + 1))

/-- A push's two writes: SP, then the cell (R121, R141). -/
def State.pushByte (s : State) (slot v : Byte) : State := (s.writeSp slot).memWrite slot v

/-! ### Faults -/

/-- The code of a fault kind (R171). -/
def FaultKind.code : FaultKind → Nat
  | .unknownOpcode => 1
  | .badRegister => 2
  | .unwrittenRegister => 3
  | .stackBelowZero => 4
  | .stackAboveTop => 5
  | .pcOutOfRange => 6

/-- The record of a fault raised in this state: `fpc` is `pc`, `opcode` the byte there (R31, R88). -/
def State.faultRecord (s : State) (r : Raise) : FaultRecord where
  kind := r.kind
  code := r.kind.code
  fpc := s.pc
  opcode := s.memRead s.pc
  detail := r.detail

/-- TAKING A FAULT: `run <- Faulted(rec)`, and nothing else changes (R88, R170, R177). There is no return from one
(R178). -/
def State.raise (s : State) (r : Raise) : State := { s with run := .faulted (s.faultRecord r) }

/-- The end of a rule (R87): what it commits, or the fault it raises, taken in the state the step found (R88). -/
def commit (s : State) : Except Raise State → Host.Outcome State Fault Refusal
  | .ok t => .next t
  | .error r => .next (s.raise r)

/-- A stopped core takes no step and keeps its whole state (R81, R185; log entry 3). -/
def stopped (s : State) : State := s

end Sys2Proof.Machine
end

