-- ==== Sys2Proof/Machine/Flags.lean ====
section
/-! DEFINITION. The one flag (R27, R28): how CMP computes it and how JEQ and JNE read it. -/

namespace Sys2Proof.Machine

/-- CMP's flag: 1 if the two values are equal and 0 if they are not (R27, R103). -/
def compareFlag (va vb : Byte) : Bool := decide (va = vb)

/-- JEQ is taken if `flag = 1` (R144). -/
def State.takesJeq (s : State) : Bool := s.flag

/-- JNE is taken if `flag = 0` (R145). -/
def State.takesJne (s : State) : Bool := !s.flag

end Sys2Proof.Machine
end

