-- ==== Sys2Proof/Machine/Operands.lean ====
section
/-! DEFINITION. The operand forms of R62 to R64: a register operand byte, a pair of them, an immediate byte, and
the register operand of PUSH and CALL under the sequential reading (R123). -/

namespace Sys2Proof.Machine

/-- `checkReg(b)`: the register a whole operand byte names, or `BadRegister(b)` for 8..255 (R17, R63). -/
def checkReg (b : Byte) : Except Raise RegIndex :=
  if h : b.toNat < 8 then .ok ⟨b.toNat, h⟩ else .error ⟨.badRegister, b.toNat⟩

/-- The immediate operand is the whole byte, used as it is (R64). -/
def immediate (b : Byte) : Byte := b

/-- A checked register operand and its value: `checkReg(a)`, then `x[a]`. -/
def State.readOperand (s : State) (a : Byte) : Except Raise Byte := do
  let r ← checkReg a
  s.readReg r

/-- The operands of an F2RR instruction: the index of Ra and the values of Ra and Rb. -/
structure OperandPair where
  dest : RegIndex
  va : Byte
  vb : Byte
  deriving DecidableEq, Repr

/-- Both register checks, then both reads, `a` before `b` (R101, R175). -/
def State.readPair (s : State) (a b : Byte) : Except Raise OperandPair := do
  let ra ← checkReg a
  let rb ← checkReg b
  let va ← s.readReg ra
  let vb ← s.readReg rb
  .ok ⟨ra, va, vb⟩

/-- What PUSH and CALL compute before they write: the cell to store to and the operand's value. -/
structure PushOperand where
  slot : Byte
  value : Byte
  deriving DecidableEq, Repr

/-- The checks and reads that PUSH and CALL share, in the order of R121 and R141: the register check, SP, the
operand, the stack limit. Operand R7 is read after the decrement (R123); reading `x[7]` a second time when
`a = 7` raises nothing that reading SP has not. -/
def State.readPushOperand (s : State) (a : Byte) : Except Raise PushOperand := do
  let r ← checkReg a
  let sp ← s.readSp
  let v ← s.readReg r
  let slot ← pushSlot sp
  .ok ⟨slot, if r = Config.spIndex then slot else v⟩

end Sys2Proof.Machine
end

