-- ==== Sys2Proof/Machine/Control.lean ====
section
/-! DEFINITION. CALL, RET, JMP, JEQ and JNE (`43_control_transfer.md`). -/

namespace Sys2Proof.Machine

/-- CALL Ra (R141). -/
def execCall (a : Byte) (s : State) : Host.Outcome State Fault Refusal :=
  commit s (do
    let p ← s.readPushOperand a
    let ret ← s.returnAddress
    .ok ((s.pushByte p.slot ret).setPc p.value))

/-- RET (R142). -/
def execRet (s : State) : Host.Outcome State Fault Refusal :=
  commit s (do
    let sp ← s.readSp
    let t := s.memRead sp
    let nsp ← popPointer sp
    .ok ((s.writeSp nsp).setPc t))

/-- JMP Ra (R143). -/
def execJmp (a : Byte) (s : State) : Host.Outcome State Fault Refusal :=
  commit s (do
    let t ← s.readOperand a
    .ok (s.setPc t))

/-- The shape of JEQ and JNE: the register check whether or not taken; the register is read only when taken
(R144, R145). -/
def State.condJump (s : State) (taken : Bool) (a : Byte) : Except Raise State := do
  let r ← checkReg a
  match taken with
  | true => do
    let t ← s.readReg r
    .ok (s.setPc t)
  | false => do
    let np ← s.fallthrough 1
    .ok (s.setPc np)

/-- JEQ Ra (R144). -/
def execJeq (a : Byte) (s : State) : Host.Outcome State Fault Refusal := commit s (s.condJump s.takesJeq a)

/-- JNE Ra (R145). -/
def execJne (a : Byte) (s : State) : Host.Outcome State Fault Refusal := commit s (s.condJump s.takesJne a)

end Sys2Proof.Machine
end

