-- ==== Sys2Proof/Machine/DataAlu.lean ====
section
/-! DEFINITION. LDI, ADD, MUL and CMP (`41_data_alu.md`). -/

namespace Sys2Proof.Machine

/-- ADD's result: the exact sum, narrowed mod 256 (R104). -/
def aluAdd (va vb : Byte) : Byte := BitVec.ofNat 8 ((va.toNat + vb.toNat) % 256)

/-- MUL's result: the exact product, narrowed mod 256 (R104). -/
def aluMul (va vb : Byte) : Byte := BitVec.ofNat 8 (va.toNat * vb.toNat % 256)

/-- The shape of ADD and MUL: read both operands, then the fall-through, then write Ra (R101, R102). -/
def State.binaryAlu (s : State) (f : Byte → Byte → Byte) (a b : Byte) : Except Raise State := do
  let p ← s.readPair a b
  let np ← s.fallthrough 2
  .ok ((s.writeReg p.dest (f p.va p.vb)).setPc np)

/-- LDI Ra,imm (R100). -/
def execLdi (a imm : Byte) (s : State) : Host.Outcome State Fault Refusal :=
  commit s (do
    let r ← checkReg a
    let np ← s.fallthrough 2
    .ok ((s.writeReg r (immediate imm)).setPc np))

/-- ADD Ra,Rb (R101). -/
def execAdd (a b : Byte) (s : State) : Host.Outcome State Fault Refusal := commit s (s.binaryAlu aluAdd a b)

/-- MUL Ra,Rb (R102). -/
def execMul (a b : Byte) (s : State) : Host.Outcome State Fault Refusal := commit s (s.binaryAlu aluMul a b)

/-- CMP Ra,Rb (R103). -/
def execCmp (a b : Byte) (s : State) : Host.Outcome State Fault Refusal :=
  commit s (do
    let p ← s.readPair a b
    let np ← s.fallthrough 2
    .ok ((s.setFlag (compareFlag p.va p.vb)).setPc np))

end Sys2Proof.Machine
end

