-- ==== Sys2Proof/Machine/Output.lean ====
section
/-! DEFINITION. PRN and HLT, and the host's rendering of the output sequence (`44_output_halt.md`). -/

namespace Sys2Proof.Machine

/-- PRN Ra (R160). -/
def execPrn (a : Byte) (s : State) : Host.Outcome State Fault Refusal :=
  commit s (do
    let v ← s.readOperand a
    let np ← s.fallthrough 1
    .ok ((s.emit v).setPc np))

/-- HLT (R161): it raises nothing, and `pc` keeps the address of the HLT byte. -/
def execHlt (s : State) : Host.Outcome State Fault Refusal := commit s (.ok s.halt)

/-- What the host writes for one emitted value: its decimal digits and a newline (R162). -/
def renderValue (v : Byte) : List Char := Nat.toDigits 10 v.toNat ++ ['\n']

/-- What the host writes for the whole output sequence, in step order (R162). -/
def hostText (out : List Byte) : List Char := out.flatMap renderValue

end Sys2Proof.Machine
end

