-- ==== Sys2Proof/Machine/Stack.lean ====
section
/-! DEFINITION. PUSH and POP (`42_stack.md`). -/

namespace Sys2Proof.Machine

/-- PUSH Ra (R121). -/
def execPush (a : Byte) (s : State) : Host.Outcome State Fault Refusal :=
  commit s (do
    let p ← s.readPushOperand a
    let np ← s.fallthrough 1
    .ok ((s.pushByte p.slot p.value).setPc np))

/-- POP Ra (R122). When `a = 7` the new SP is the popped byte plus 1, and it overwrites the popped byte (R123). -/
def execPop (a : Byte) (s : State) : Host.Outcome State Fault Refusal :=
  commit s (do
    let r ← checkReg a
    let sp ← s.readSp
    let v := s.memRead sp
    let nsp ← popPointer (if r = Config.spIndex then v else sp)
    let np ← s.fallthrough 1
    .ok (((s.writeReg r v).writeSp nsp).setPc np))

end Sys2Proof.Machine
end

