-- ==== Sys2Proof/Decode.lean ====
section
/-! DEFINITION. The opcode map, the decoder and the encoder (`30_encoding.md`). The decoder reads the hex column
of R65; the encoder builds the opcode byte from the field columns NN, A, P and IIII of the same table (R61). -/

namespace Sys2Proof

/-! ### The fields of an opcode byte (R61, bit numbering of R15) -/

/-- `op[7:6]`, the operand count. -/
def opNN (op : Byte) : BitVec 2 := op.extractLsb' 6 2

/-- `op[5]`, ALU class (informational). -/
def opA (op : Byte) : BitVec 1 := op.extractLsb' 5 1

/-- `op[4]`, sets PC directly (informational). -/
def opP (op : Byte) : BitVec 1 := op.extractLsb' 4 1

/-- `op[3:0]`, the opcode identity. -/
def opIIII (op : Byte) : BitVec 4 := op.extractLsb' 0 4

/-- The opcode byte with the given fields (R61). -/
def opcodeByte (nn : BitVec 2) (a p : BitVec 1) (iiii : BitVec 4) : Byte := nn ++ a ++ p ++ iiii

/-! ### Decode -/

/-- Why a byte sequence is no instruction. -/
inductive DecodeError where
  /-- The first byte is not in the opcode map (R68); the step raises `UnknownOpcode` (R84). -/
  | unknownOpcode (op : Byte)
  /-- The opcode is in the map and an operand byte it needs is missing (R60). -/
  | truncated (op : Byte)
  /-- There is no byte at all. -/
  | noBytes
  deriving DecidableEq, Repr

/-- The operand count n of an instruction's row (R65). -/
def Instr.operandCount : Instr → Nat
  | .hlt | .ret => 0
  | .push _ | .pop _ | .prn _ | .call _ | .jmp _ | .jeq _ | .jne _ => 1
  | .ldi _ _ | .add _ _ | .mul _ _ | .cmp _ _ => 2

/-- R84, R66: decode compares all eight bits of the latched opcode `op` with the hex column of R65; `a` and `b`
are the two prefetched bytes, of which the instruction keeps those it uses (R69). -/
def decodeLatched (op a b : Byte) : Except DecodeError Instr :=
  match op with
  | 0x01#8 => .ok .hlt
  | 0x11#8 => .ok .ret
  | 0x45#8 => .ok (.push a)
  | 0x46#8 => .ok (.pop a)
  | 0x47#8 => .ok (.prn a)
  | 0x50#8 => .ok (.call a)
  | 0x54#8 => .ok (.jmp a)
  | 0x55#8 => .ok (.jeq a)
  | 0x56#8 => .ok (.jne a)
  | 0x82#8 => .ok (.ldi a b)
  | 0xA0#8 => .ok (.add a b)
  | 0xA2#8 => .ok (.mul a b)
  | 0xA7#8 => .ok (.cmp a b)
  | _ => .error (.unknownOpcode op)

/-- R60, R70: the instruction at the head of a byte sequence and the bytes after it. An operand byte beyond the
end of the sequence is not used: the instruction is `truncated`. -/
def decode : List Byte → Except DecodeError (Instr × List Byte)
  | [] => .error .noBytes
  | op :: rest =>
    match decodeLatched op (rest.getD 0 0x00#8) (rest.getD 1 0x00#8) with
    | .error e => .error e
    | .ok i =>
      if rest.length < i.operandCount then .error (.truncated op) else .ok (i, rest.drop i.operandCount)

/-! ### Encode -/

/-- The opcode byte of an instruction from the field columns NN, A, P, IIII of R65. -/
def Instr.opcode : Instr → Byte
  | .hlt => opcodeByte 0b00 0 0 0b0001
  | .ret => opcodeByte 0b00 0 1 0b0001
  | .push _ => opcodeByte 0b01 0 0 0b0101
  | .pop _ => opcodeByte 0b01 0 0 0b0110
  | .prn _ => opcodeByte 0b01 0 0 0b0111
  | .call _ => opcodeByte 0b01 0 1 0b0000
  | .jmp _ => opcodeByte 0b01 0 1 0b0100
  | .jeq _ => opcodeByte 0b01 0 1 0b0101
  | .jne _ => opcodeByte 0b01 0 1 0b0110
  | .ldi _ _ => opcodeByte 0b10 0 0 0b0010
  | .add _ _ => opcodeByte 0b10 1 0 0b0000
  | .mul _ _ => opcodeByte 0b10 1 0 0b0010
  | .cmp _ _ => opcodeByte 0b10 1 0 0b0111

/-- The operand bytes in encoding order, `a` then `b` (R60, R62). -/
def Instr.operandBytes : Instr → List Byte
  | .hlt | .ret => []
  | .push a | .pop a | .prn a | .call a | .jmp a | .jeq a | .jne a => [a]
  | .ldi a imm => [a, imm]
  | .add a b | .mul a b | .cmp a b => [a, b]

/-- The bytes of an instruction, at increasing addresses (R46, R60). -/
def encode (i : Instr) : List Byte := i.opcode :: i.operandBytes

/-! ### The host's view of a table word -/

/-- Byte `k` of the `nbits`-bit number `w`; every bit at or above `nbits` is 0. -/
def tableByte (nbits w k : Nat) : Byte := BitVec.ofNat 8 (w % 2 ^ nbits / 256 ^ k)

/-- The bytes of a table word, lowest address first, up to the longest instruction (R46, R60). -/
def tableBytes (nbits w : Nat) : List Byte := [tableByte nbits w 0, tableByte nbits w 1, tableByte nbits w 2]

/-- The instruction the decoder reads from a table word. -/
def decodeTableWord (nbits w : Nat) : Option Instr :=
  match decode (tableBytes nbits w) with
  | .ok r => some r.1
  | .error _ => none

end Sys2Proof
end

