-- ==== Sys2Proof/Machine/Fetch.lean ====
section
/-! DEFINITION. Fetch, prefetch, decode and the operand check (R82 to R85). -/

namespace Sys2Proof.Machine

/-- The opcode byte and the two operand bytes latched by one step (R33, R83). -/
structure Latch where
  op : Byte
  a : Byte
  b : Byte
  deriving DecidableEq, Repr

/-- The address k bytes after `pc`, mod 256 (R83). -/
def State.fetchAddress (s : State) (k : Nat) : Byte := BitVec.ofNat 8 ((s.pc.toNat + k) % 256)

/-- The opcode fetch (R82) and the unconditional prefetch (R83). It changes no state. -/
def State.fetch (s : State) : Latch where
  op := s.memRead s.pc
  a := s.memRead (s.fetchAddress 1)
  b := s.memRead (s.fetchAddress 2)

/-- Decode (R84) and then the operand check (R85). -/
def State.fetchDecode (s : State) : Except Raise Instr :=
  match decodeLatched s.fetch.op s.fetch.a s.fetch.b with
  | .error _ => .error ⟨.unknownOpcode, s.fetch.op.toNat⟩
  | .ok i => do
    s.operandCheck i.operandCount
    .ok i

/-- Bytes stored from the fetch address on, the k-th at `pc + k` mod 256. -/
def State.storeAtFetch (s : State) (k : Nat) : List Byte → State
  | [] => s
  | v :: vs => (s.memWrite (s.fetchAddress k) v).storeAtFetch (k + 1) vs

/-- `run <- Running`: what a completed image load leaves (R193). -/
def State.setRunning (s : State) : State := { s with run := .running }

end Sys2Proof.Machine
end

