-- ==== Sys2Proof/Machine/Step.lean ====
section
/-! DEFINITION. One step (R80, R81, R90), and the host's placing of a table word. -/

namespace Sys2Proof.Machine

/-- One step of the core (R90). Every fault is taken, so a step always answers a next state. A stopped core takes
no step: the state stays as it is (R81, R185; log entry 3). -/
def step (s : State) : Host.Outcome State Fault Refusal :=
  match s.run with
  | .running =>
    match s.fetchDecode with
    | .ok i => exec i s
    | .error r => .next (s.raise r)
  | .halted => .next (stopped s)
  | .faulted _ => .next (stopped s)

/-- The state with a table word's bytes stored where the next step fetches, and the core running (log entry 6). -/
def State.withFetchWord (s : State) (nbits w : Nat) : State := (s.storeAtFetch 0 (tableBytes nbits w)).setRunning

end Sys2Proof.Machine
end

