-- ==== Sys2Proof/Machine/Boot.lean ====
section
/-! DEFINITION. The image load (R192) and the host's reset (R190). -/

namespace Sys2Proof.Machine

/-- The longest image (R192). -/
def maxImage : Nat := 256

/-- Memory with an image's bytes placed at increasing addresses from `addr` on (R46, R192). -/
def Memory.place (m : Memory) (addr : Nat) : List Byte → Memory
  | [] => m
  | v :: vs => Memory.place (Memory.write m addr v) (addr + 1) vs

/-- Reset followed by the load of an image (R191 to R193). A longer image than 256 bytes is refused and gives no
state. -/
def loadImage (img : List Byte) : Host.Outcome State Fault Refusal :=
  if img.length > maxImage then .refused (.imageTooLong img.length)
  else .next { State.reset with mem := Memory.place State.reset.mem 0 img }

/-- The host asserts reset in any state, and then loads an image: the old run is not resumed (R190, R195). The
input comes from outside `step` (log entry 7). -/
def hostReset (_ : State) (img : List Byte) : Host.Outcome State Fault Refusal := loadImage img

end Sys2Proof.Machine
end

