-- ==== Sys2Proof/Machine/Run.lean ====
section
/-! DEFINITION. The end of a run and what the host observes at it (R176, R198, R199). -/

namespace Sys2Proof.Machine

/-- A run ends when `run` becomes `Halted` or `Faulted(rec)` (R199). -/
def State.ended (s : State) : Bool :=
  match s.run with
  | .running => false
  | .halted => true
  | .faulted _ => true

/-- A register as the host sees it: its value if it is written, nothing if it is unwritten (R24, R35). -/
def Reg.seen (r : Reg) : Option Byte := if r.written then some r.value else none

/-- The observation at the end of a run, its two parts in one record: the run state with its fault record, and the
rest of the state (R199). `x` lists R0 to R7 in order. -/
structure Observation where
  run : RunState
  x : List (Option Byte)
  pc : Byte
  flag : Bool
  mem : Memory
  out : List Byte
  deriving DecidableEq, Repr

/-- The observation of a run that has ended; a run that has not ended has none (R199). -/
def State.observe (s : State) : Option Observation :=
  if s.ended then some ⟨s.run, s.regs.toList.map Reg.seen, s.pc, s.flag, s.mem, s.out⟩ else none

/-- What a run under a step budget reports (R198). -/
inductive RunReport where
  /-- The run ended in this state. -/
  | ended (s : State)
  /-- The budget ran out first: not an end (R198, R199). -/
  | notEnded (s : State)
  /-- A step gave no state; no step of this model does so. -/
  | noState
  deriving DecidableEq, Repr

/-- A run under a budget of steps, which stops at the first ended state (R198, R199). -/
def runFor : Nat → State → RunReport
  | 0, s => if s.ended then .ended s else .notEnded s
  | fuel + 1, s =>
    if s.ended then .ended s
    else
      match step s with
      | .next t => runFor fuel t
      | .fault _ => .noState
      | .refused _ => .noState

end Sys2Proof.Machine
end

