-- ==== Sys2Proof/WellFormed.lean ====
section
/-! DEFINITION. Which instructions name only registers that exist (R63). An instruction that fails this check
still decodes and still executes: it raises `BadRegister` (log entry 9). -/

namespace Sys2Proof

/-- The operand bytes in a register role, in encoding order (R62). -/
def Instr.registerOperands : Instr → List Byte
  | .hlt | .ret => []
  | .push a | .pop a | .prn a | .call a | .jmp a | .jeq a | .jne a => [a]
  | .ldi a _ => [a]
  | .add a b | .mul a b | .cmp a b => [a, b]

/-- R63: a valid index is 0..7 and names R0..R7. -/
def validRegister (b : Byte) : Bool := decide (b.toNat < 8)

/-- Every operand byte in a register role names a register (R63). -/
def Instr.wellFormed (i : Instr) : Bool := i.registerOperands.all validRegister

end Sys2Proof
end

