-- ==== Sys2Proof/Safety.lean ====
section
/-! DEFINITION. The terms claims are stated in: the invariant every step keeps, the table of which checks an
instruction makes in which order (R172, R175), what no program can tell apart, and sequences of instructions. -/

namespace Sys2Proof.Machine

/-! ### The invariant -/

/-- The details a fault kind can carry, given the opcode byte of its record (R171). -/
def FaultKind.detailFits (k : FaultKind) (opcode : Byte) (detail : Nat) : Prop :=
  match k with
  | .unknownOpcode => detail = opcode.toNat
  | .badRegister => 8 ≤ detail ∧ detail ≤ 255
  | .unwrittenRegister => detail ≤ 6
  | .stackBelowZero => detail = 0
  | .stackAboveTop => detail = 256
  | .pcOutOfRange => detail = 256 ∨ detail = 257

/-- A record describes the faulted state it stands in: its code is its kind's, `fpc` is `pc`, `opcode` is the byte
there, and the detail is one its kind carries (R31, R171). -/
def FaultRecord.describes (rec : FaultRecord) (s : State) : Prop :=
  rec.code = rec.kind.code ∧ rec.fpc = s.pc ∧ rec.opcode = s.memRead s.pc ∧
    rec.kind.detailFits rec.opcode rec.detail

/-- What holds of every state a run reaches: memory keeps its canonical form (R32), SP is written (R24), and a
fault record describes its state (R31). -/
structure State.Inv (s : State) : Prop where
  memWf : Memory.wf s.mem
  spWritten : (s.reg Config.spIndex).written = true
  record : ∀ rec, s.run = .faulted rec → rec.describes s

/-- A state no fault has ended. -/
def State.faultFree (s : State) : Prop := ∀ rec, s.run ≠ .faulted rec

/-- An opcode byte that the map of R65 does not list (R68), by the hex column. -/
def illegalOpcode (op : Byte) : Prop :=
  op ∉ [0x01#8, 0x11#8, 0x45#8, 0x46#8, 0x47#8, 0x50#8, 0x54#8, 0x55#8, 0x56#8, 0x82#8, 0xA0#8, 0xA2#8, 0xA7#8]

/-! ### Which fault a step reports: the table of R172 in the order of R175 -/

/-- A condition and the fault raised when it holds. -/
structure Check where
  fails : Bool
  raises : Raise

/-- The first failing check's fault (R175: the step reports the first applicable one). -/
def firstRaise : List Check → Option Raise
  | [] => none
  | c :: cs => if c.fails then some c.raises else firstRaise cs

/-- The value SP holds. -/
def State.sp (s : State) : Byte := (s.reg Config.spIndex).value

/-- The operand bytes whose register's value an instruction uses, in order (R23; R7 read as SP is left out, since
R7 is always written). -/
def registersRead (i : Instr) (s : State) : List Byte :=
  match i with
  | .hlt | .ret | .pop _ | .ldi _ _ => []
  | .push a | .prn a | .call a | .jmp a => [a]
  | .jeq a => if s.flag then [a] else []
  | .jne a => if s.flag then [] else [a]
  | .add a b | .mul a b | .cmp a b => [a, b]

/-- Whether a register operand names an unwritten register. -/
def State.unwrittenOperand (s : State) (b : Byte) : Bool :=
  if h : b.toNat < 8 then !(s.reg ⟨b.toNat, h⟩).written else false

/-- Item 5 of R175: the one stack check an instruction makes (R171, R172). -/
def stackChecks (i : Instr) (s : State) : List Check :=
  match i with
  | .push _ | .call _ => [⟨s.sp = 0x00#8, ⟨.stackBelowZero, 0⟩⟩]
  | .pop a => [⟨(if a = 0x07#8 then s.memRead s.sp else s.sp) = 0xFF#8, ⟨.stackAboveTop, 256⟩⟩]
  | .ret => [⟨s.sp = 0xFF#8, ⟨.stackAboveTop, 256⟩⟩]
  | .hlt | .prn _ | .jmp _ | .jeq _ | .jne _ | .ldi _ _ | .add _ _ | .mul _ _ | .cmp _ _ => []

/-- Item 6 of R175: the fall-through or return address an instruction needs in 0..255 (R172). -/
def nextAddress (i : Instr) (s : State) : Option Nat :=
  match i with
  | .hlt | .ret | .jmp _ => none
  | .push _ | .pop _ | .prn _ | .call _ => some (s.pc.toNat + 2)
  | .jeq _ => if s.flag then none else some (s.pc.toNat + 2)
  | .jne _ => if s.flag then some (s.pc.toNat + 2) else none
  | .ldi _ _ | .add _ _ | .mul _ _ | .cmp _ _ => some (s.pc.toNat + 3)

/-- The checks an instruction's rule makes, in the order of R175 items 3 to 6. -/
def ruleChecks (i : Instr) (s : State) : List Check :=
  i.registerOperands.map (fun b => ⟨!validRegister b, ⟨.badRegister, b.toNat⟩⟩) ++
  (registersRead i s).map (fun b => ⟨s.unwrittenOperand b, ⟨.unwrittenRegister, b.toNat⟩⟩) ++
  stackChecks i s ++
  (nextAddress i s).toList.map (fun t => ⟨255 < t, ⟨.pcOutOfRange, t⟩⟩)

/-- The fault one step from a running state reports, all six items of R175; none if the step completes. -/
def State.stepRaise (s : State) : Option Raise :=
  match decodeLatched s.fetch.op s.fetch.a s.fetch.b with
  | .error _ => some ⟨.unknownOpcode, s.fetch.op.toNat⟩
  | .ok i =>
    firstRaise (⟨255 < s.pc.toNat + i.operandCount, ⟨.pcOutOfRange, s.pc.toNat + i.operandCount⟩⟩ :: ruleChecks i s)

/-! ### What no program can tell apart -/

/-- Two states that differ at most in the value stored under an unwritten mark (R24, R35). -/
structure State.Alike (s t : State) : Prop where
  regs : ∀ i, (s.reg i).seen = (t.reg i).seen
  pc : s.pc = t.pc
  flag : s.flag = t.flag
  mem : s.mem = t.mem
  run : s.run = t.run
  out : s.out = t.out

/-! ### Sequences of instructions -/

/-- The state after executing a list of instructions in order, if no one of them faults or halts (R123's "no step
faults"). -/
def execSeq : List Instr → State → Option State
  | [], s => some s
  | i :: is, s =>
    match exec i s with
    | .next t => if t.run = s.run then execSeq is t else none
    | .fault _ => none
    | .refused _ => none

/-- The balanced sequences of PUSH and POP in which no POP names R7 (R123). -/
inductive BalancedStackOps : List Instr → Prop where
  | none : BalancedStackOps []
  | around (a b : Byte) (w : List Instr) (notSp : b ≠ 0x07#8) (inner : BalancedStackOps w) :
      BalancedStackOps (.push a :: w ++ [.pop b])
  | after (v w : List Instr) (first : BalancedStackOps v) (second : BalancedStackOps w) :
      BalancedStackOps (v ++ w)

end Sys2Proof.Machine
end

