-- ==== Sys2Proof/Certificates/Slice0/Obligations.lean ====
section
/-! DEFINITION. What is to be proved about the model, each statement with the rule of spec/ it formalises.

Conventions: `a`, `b` are operand bytes and `ra`, `rb` the registers they name (`ra.val = a.toNat`); SP is register
`Config.spIndex` = 7; a fault of the spec is a next state whose `run` is `.faulted` (R88). -/

open Sys2Proof Sys2Proof.Machine

/-! ### Encoding (`30_encoding.md`) -/

/-- R60, R62, R65: decoding the bytes of any instruction, at every value of every operand byte, gives it back with
the bytes that follow. -/
def Obligations.DecodeInvertsEncode : Prop :=
  ∀ (i : Instr) (rest : List Byte), decode (encode i ++ rest) = .ok (i, rest)

/-- R60, R66: a byte sequence that decodes to an instruction begins with exactly that instruction's bytes, so no
two encodings stand for one instruction. -/
def Obligations.EncodeInvertsDecode : Prop :=
  ∀ (bytes : List Byte) (i : Instr) (rest : List Byte),
    decode bytes = .ok (i, rest) → bytes = encode i ++ rest

/-- R65, R66, R68: the thirteen listed opcode bytes decode, each to an instruction with that opcode byte; every other
byte is reported as unknown. -/
def Obligations.OpcodeDecodesExactlyIfListed : Prop :=
  ∀ op a b : Byte,
    (illegalOpcode op → decodeLatched op a b = .error (.unknownOpcode op)) ∧
    (¬ illegalOpcode op → ∃ i, decodeLatched op a b = .ok i ∧ i.opcode = op)

/-- R65, R72: words written out from the table, at least one for every family, decode to their instructions. -/
def Obligations.TableWordsDecode : Prop :=
  decode [0b10000010#8, 0x01#8, 0x09#8] = .ok (.ldi 1 9, []) ∧
  decode [0b10100000#8, 0x00#8, 0x01#8] = .ok (.add 0 1, []) ∧
  decode [0b10100010#8, 0x00#8, 0x02#8] = .ok (.mul 0 2, []) ∧
  decode [0b10100111#8, 0x07#8, 0x02#8] = .ok (.cmp 7 2, []) ∧
  decode [0b01000101#8, 0x03#8] = .ok (.push 3, []) ∧
  decode [0b01010101#8, 0x02#8] = .ok (.jeq 2, []) ∧
  decode [0b01000111#8, 0x00#8] = .ok (.prn 0, []) ∧
  decode [0b00010001#8] = .ok (.ret, []) ∧
  decode [0b00000001#8] = .ok (.hlt, [])

/-- R67: the model's opcode map meets the five constraints on any map. -/
def Obligations.OpcodeMapMeetsConstraints : Prop :=
  ∀ a b : Byte,
    ((Instr.ldi a b).opcode = 0x82#8 ∧ (Instr.add a b).opcode = 0xA0#8 ∧ (Instr.prn a).opcode = 0x47#8 ∧
      Instr.hlt.opcode = 0x01#8) ∧
    [Instr.hlt, .ret, .push a, .pop a, .prn a, .call a, .jmp a, .jeq a, .jne a, .ldi a b, .add a b, .mul a b,
      .cmp a b].Pairwise (fun i j => i.opcode ≠ j.opcode) ∧
    ((∀ i ∈ [Instr.ldi a b, .add a b, .mul a b, .cmp a b], (opNN i.opcode).toNat = 2) ∧
      (∀ i ∈ [Instr.prn a, .push a, .pop a, .call a, .jmp a, .jeq a, .jne a], (opNN i.opcode).toNat = 1) ∧
      (∀ i ∈ [Instr.ret, .hlt], (opNN i.opcode).toNat = 0)) ∧
    ((∀ i ∈ [Instr.add a b, .mul a b, .cmp a b], opA i.opcode = 1) ∧
      (∀ i ∈ [Instr.hlt, .ret, .push a, .pop a, .prn a, .call a, .jmp a, .jeq a, .jne a, .ldi a b],
        opA i.opcode = 0)) ∧
    ((∀ i ∈ [Instr.call a, .ret, .jmp a, .jeq a, .jne a], opP i.opcode = 1) ∧
      (∀ i ∈ [Instr.hlt, .push a, .pop a, .prn a, .ldi a b, .add a b, .mul a b, .cmp a b], opP i.opcode = 0))

/-- R69: an instruction decodes whatever the operand bytes it does not use hold, and to the same instruction. -/
def Obligations.UnusedOperandBytesIgnored : Prop :=
  ∀ (op a b a' b' : Byte) (i : Instr), decodeLatched op a b = .ok i →
    (i.operandCount = 1 → decodeLatched op a b' = .ok i) ∧
    (i.operandCount = 0 → decodeLatched op a' b' = .ok i)

/-! ### The step (`40_fetch_decode_execute.md`) -/

/-- R82 to R86, R90: a step from a running state reads the opcode at `pc` and two bytes at the next two addresses mod
256; an unknown opcode is taken as a fault; an operand byte beyond address 255 is taken as a fault; otherwise the
step is `exec` of the decoded instruction on the same state, and nothing is added around it. -/
def Obligations.StepFetchesDecodesDispatches : Prop :=
  ∀ s : State, s.run = .running →
    let decoded := decodeLatched (s.memRead s.pc) (s.memRead (BitVec.ofNat 8 ((s.pc.toNat + 1) % 256)))
      (s.memRead (BitVec.ofNat 8 ((s.pc.toNat + 2) % 256)))
    (∀ e, decoded = .error e → step s = .next (s.raise ⟨.unknownOpcode, (s.memRead s.pc).toNat⟩)) ∧
    (∀ i, decoded = .ok i → 255 < s.pc.toNat + i.operandCount →
      step s = .next (s.raise ⟨.pcOutOfRange, s.pc.toNat + i.operandCount⟩)) ∧
    (∀ i, decoded = .ok i → s.pc.toNat + i.operandCount ≤ 255 → step s = exec i s)

/-- R60, R86: where the bytes of an instruction lie in memory from `pc` on, whole and without wrapping, a step is
`exec` of that instruction. -/
def Obligations.StepRunsInstructionInMemory : Prop :=
  ∀ (s : State) (i : Instr), s.run = .running →
    s.pc.toNat + (encode i).length ≤ 256 →
    (∀ (k : Nat) (h : k < (encode i).length), s.memRead (BitVec.ofNat 8 (s.pc.toNat + k)) = (encode i)[k]) →
    step s = exec i s

/-- R84, R173: an opcode byte that is not listed ends the run; only `run` changes, and the record carries the byte. -/
def Obligations.UnknownOpcodeEndsRun : Prop :=
  ∀ s : State, s.run = .running → illegalOpcode (s.memRead s.pc) →
    step s = .next { s with run := .faulted ⟨.unknownOpcode, 1, s.pc, s.memRead s.pc, (s.memRead s.pc).toNat⟩ }

/-- R81, R195: from a halted or faulted state, any number of steps of the machine leaves the whole state as it is.
That a stopped core answers its own state is the model's reading of "takes no step" (log entry 3). -/
def Obligations.StoppedCoreStays : Prop :=
  ∀ (s : State) (k : Nat), s.run ≠ .running → Host.Core.run core k s = .next s

/-! ### Data movement and the ALU (`41_data_alu.md`) -/

/-- R100: LDI: its encoding, its effect, and its exceptions in order. -/
def Obligations.LdiLoadsImmediate : Prop :=
  (∀ (a imm : Byte) (rest : List Byte), decode (0x82#8 :: a :: imm :: rest) = .ok (.ldi a imm, rest)) ∧
  ∀ (a imm : Byte) (s : State),
    (8 ≤ a.toNat → exec (.ldi a imm) s = .next (s.raise ⟨.badRegister, a.toNat⟩)) ∧
    ∀ ra : RegIndex, ra.val = a.toNat →
      (s.pc.toNat + 3 ≤ 255 →
        exec (.ldi a imm) s = .next { s with
          regs := s.regs.set ra.val ⟨imm, true⟩, pc := BitVec.ofNat 8 (s.pc.toNat + 3) }) ∧
      (256 ≤ s.pc.toNat + 3 → exec (.ldi a imm) s = .next (s.raise ⟨.pcOutOfRange, s.pc.toNat + 3⟩))

/-- R101: ADD: its encoding, its effect (the sum mod 256; no flag), and its exceptions in order. -/
def Obligations.AddSumsModulo256 : Prop :=
  (∀ (a b : Byte) (rest : List Byte), decode (0xA0#8 :: a :: b :: rest) = .ok (.add a b, rest)) ∧
  ∀ (a b : Byte) (s : State),
    (8 ≤ a.toNat → exec (.add a b) s = .next (s.raise ⟨.badRegister, a.toNat⟩)) ∧
    (a.toNat < 8 → 8 ≤ b.toNat → exec (.add a b) s = .next (s.raise ⟨.badRegister, b.toNat⟩)) ∧
    ∀ ra rb : RegIndex, ra.val = a.toNat → rb.val = b.toNat →
      ((s.reg ra).written = true → (s.reg rb).written = true → s.pc.toNat + 3 ≤ 255 →
        exec (.add a b) s = .next { s with
          regs := s.regs.set ra.val
            ⟨BitVec.ofNat 8 (((s.reg ra).value.toNat + (s.reg rb).value.toNat) % 256), true⟩,
          pc := BitVec.ofNat 8 (s.pc.toNat + 3) }) ∧
      ((s.reg ra).written = false → exec (.add a b) s = .next (s.raise ⟨.unwrittenRegister, a.toNat⟩)) ∧
      ((s.reg ra).written = true → (s.reg rb).written = false →
        exec (.add a b) s = .next (s.raise ⟨.unwrittenRegister, b.toNat⟩)) ∧
      ((s.reg ra).written = true → (s.reg rb).written = true → 256 ≤ s.pc.toNat + 3 →
        exec (.add a b) s = .next (s.raise ⟨.pcOutOfRange, s.pc.toNat + 3⟩))

/-- R102: MUL: its encoding, its effect (the low byte of the product; no flag), and its exceptions in order. -/
def Obligations.MulMultipliesModulo256 : Prop :=
  (∀ (a b : Byte) (rest : List Byte), decode (0xA2#8 :: a :: b :: rest) = .ok (.mul a b, rest)) ∧
  ∀ (a b : Byte) (s : State),
    (8 ≤ a.toNat → exec (.mul a b) s = .next (s.raise ⟨.badRegister, a.toNat⟩)) ∧
    (a.toNat < 8 → 8 ≤ b.toNat → exec (.mul a b) s = .next (s.raise ⟨.badRegister, b.toNat⟩)) ∧
    ∀ ra rb : RegIndex, ra.val = a.toNat → rb.val = b.toNat →
      ((s.reg ra).written = true → (s.reg rb).written = true → s.pc.toNat + 3 ≤ 255 →
        exec (.mul a b) s = .next { s with
          regs := s.regs.set ra.val
            ⟨BitVec.ofNat 8 ((s.reg ra).value.toNat * (s.reg rb).value.toNat % 256), true⟩,
          pc := BitVec.ofNat 8 (s.pc.toNat + 3) }) ∧
      ((s.reg ra).written = false → exec (.mul a b) s = .next (s.raise ⟨.unwrittenRegister, a.toNat⟩)) ∧
      ((s.reg ra).written = true → (s.reg rb).written = false →
        exec (.mul a b) s = .next (s.raise ⟨.unwrittenRegister, b.toNat⟩)) ∧
      ((s.reg ra).written = true → (s.reg rb).written = true → 256 ≤ s.pc.toNat + 3 →
        exec (.mul a b) s = .next (s.raise ⟨.pcOutOfRange, s.pc.toNat + 3⟩))

/-- R103: CMP: its encoding, its effect (the flag records equality; no register changes), and its exceptions in
order. -/
def Obligations.CmpRecordsEquality : Prop :=
  (∀ (a b : Byte) (rest : List Byte), decode (0xA7#8 :: a :: b :: rest) = .ok (.cmp a b, rest)) ∧
  ∀ (a b : Byte) (s : State),
    (8 ≤ a.toNat → exec (.cmp a b) s = .next (s.raise ⟨.badRegister, a.toNat⟩)) ∧
    (a.toNat < 8 → 8 ≤ b.toNat → exec (.cmp a b) s = .next (s.raise ⟨.badRegister, b.toNat⟩)) ∧
    ∀ ra rb : RegIndex, ra.val = a.toNat → rb.val = b.toNat →
      ((s.reg ra).written = true → (s.reg rb).written = true → s.pc.toNat + 3 ≤ 255 →
        exec (.cmp a b) s = .next { s with
          flag := if (s.reg ra).value.toNat = (s.reg rb).value.toNat then true else false,
          pc := BitVec.ofNat 8 (s.pc.toNat + 3) }) ∧
      ((s.reg ra).written = false → exec (.cmp a b) s = .next (s.raise ⟨.unwrittenRegister, a.toNat⟩)) ∧
      ((s.reg ra).written = true → (s.reg rb).written = false →
        exec (.cmp a b) s = .next (s.raise ⟨.unwrittenRegister, b.toNat⟩)) ∧
      ((s.reg ra).written = true → (s.reg rb).written = true → 256 ≤ s.pc.toNat + 3 →
        exec (.cmp a b) s = .next (s.raise ⟨.pcOutOfRange, s.pc.toNat + 3⟩))

/-! ### The stack (`42_stack.md`) -/

/-- R121: PUSH: its encoding, its effect (SP - 1, then the cell there; operand R7 stores the new SP), and its
exceptions in order. SP is written in every state a run reaches (`InvariantKeptByStep`). -/
def Obligations.PushStoresBelowStackPointer : Prop :=
  (∀ (a : Byte) (rest : List Byte), decode (0x45#8 :: a :: rest) = .ok (.push a, rest)) ∧
  ∀ (a : Byte) (s : State), (s.reg Config.spIndex).written = true →
    (8 ≤ a.toNat → exec (.push a) s = .next (s.raise ⟨.badRegister, a.toNat⟩)) ∧
    ∀ ra : RegIndex, ra.val = a.toNat →
      ((s.reg ra).written = true → 1 ≤ s.sp.toNat → s.pc.toNat + 2 ≤ 255 →
        exec (.push a) s = .next { s with
          regs := s.regs.set 7 ⟨BitVec.ofNat 8 (s.sp.toNat - 1), true⟩,
          mem := Memory.write s.mem (s.sp.toNat - 1)
            (if ra = 7 then BitVec.ofNat 8 (s.sp.toNat - 1) else (s.reg ra).value),
          pc := BitVec.ofNat 8 (s.pc.toNat + 2) }) ∧
      ((s.reg ra).written = false → exec (.push a) s = .next (s.raise ⟨.unwrittenRegister, a.toNat⟩)) ∧
      ((s.reg ra).written = true → s.sp.toNat = 0 → exec (.push a) s = .next (s.raise ⟨.stackBelowZero, 0⟩)) ∧
      ((s.reg ra).written = true → 1 ≤ s.sp.toNat → 256 ≤ s.pc.toNat + 2 →
        exec (.push a) s = .next (s.raise ⟨.pcOutOfRange, s.pc.toNat + 2⟩))

/-- R122: POP: its encoding, its effect (the byte at SP, then SP + 1; operand R7 leaves the popped byte plus 1), and
its exceptions in order. -/
def Obligations.PopLoadsFromStackPointer : Prop :=
  (∀ (a : Byte) (rest : List Byte), decode (0x46#8 :: a :: rest) = .ok (.pop a, rest)) ∧
  ∀ (a : Byte) (s : State), (s.reg Config.spIndex).written = true →
    (8 ≤ a.toNat → exec (.pop a) s = .next (s.raise ⟨.badRegister, a.toNat⟩)) ∧
    ∀ ra : RegIndex, ra.val = a.toNat →
      let nsp := (if ra = 7 then (s.memRead s.sp).toNat else s.sp.toNat) + 1
      (nsp ≤ 255 → s.pc.toNat + 2 ≤ 255 →
        exec (.pop a) s = .next { s with
          regs := (s.regs.set ra.val ⟨s.memRead s.sp, true⟩).set 7 ⟨BitVec.ofNat 8 nsp, true⟩,
          pc := BitVec.ofNat 8 (s.pc.toNat + 2) }) ∧
      (256 ≤ nsp → exec (.pop a) s = .next (s.raise ⟨.stackAboveTop, nsp⟩)) ∧
      (nsp ≤ 255 → 256 ≤ s.pc.toNat + 2 → exec (.pop a) s = .next (s.raise ⟨.pcOutOfRange, s.pc.toNat + 2⟩))

/-! ### Control transfer (`43_control_transfer.md`) -/

/-- R141: CALL: its encoding, its effect (push `pc + 2`, jump to the register; operand R7 jumps to the new SP), and
its exceptions in order. -/
def Obligations.CallPushesReturnAddress : Prop :=
  (∀ (a : Byte) (rest : List Byte), decode (0x50#8 :: a :: rest) = .ok (.call a, rest)) ∧
  ∀ (a : Byte) (s : State), (s.reg Config.spIndex).written = true →
    (8 ≤ a.toNat → exec (.call a) s = .next (s.raise ⟨.badRegister, a.toNat⟩)) ∧
    ∀ ra : RegIndex, ra.val = a.toNat →
      ((s.reg ra).written = true → 1 ≤ s.sp.toNat → s.pc.toNat + 2 ≤ 255 →
        exec (.call a) s = .next { s with
          regs := s.regs.set 7 ⟨BitVec.ofNat 8 (s.sp.toNat - 1), true⟩,
          mem := Memory.write s.mem (s.sp.toNat - 1) (BitVec.ofNat 8 (s.pc.toNat + 2)),
          pc := if ra = 7 then BitVec.ofNat 8 (s.sp.toNat - 1) else (s.reg ra).value }) ∧
      ((s.reg ra).written = false → exec (.call a) s = .next (s.raise ⟨.unwrittenRegister, a.toNat⟩)) ∧
      ((s.reg ra).written = true → s.sp.toNat = 0 → exec (.call a) s = .next (s.raise ⟨.stackBelowZero, 0⟩)) ∧
      ((s.reg ra).written = true → 1 ≤ s.sp.toNat → 256 ≤ s.pc.toNat + 2 →
        exec (.call a) s = .next (s.raise ⟨.pcOutOfRange, s.pc.toNat + 2⟩))

/-- R142: RET: its encoding, its effect (the byte at SP into `pc`, then SP + 1), and its one exception. -/
def Obligations.RetPopsProgramCounter : Prop :=
  (∀ rest : List Byte, decode (0x11#8 :: rest) = .ok (.ret, rest)) ∧
  ∀ s : State, (s.reg Config.spIndex).written = true →
    (s.sp.toNat + 1 ≤ 255 →
      exec .ret s = .next { s with
        regs := s.regs.set 7 ⟨BitVec.ofNat 8 (s.sp.toNat + 1), true⟩, pc := s.memRead s.sp }) ∧
    (s.sp.toNat = 255 → exec .ret s = .next (s.raise ⟨.stackAboveTop, 256⟩))

/-- R143: JMP: its encoding, its effect (`pc` is the register's value, with no increment), and its exceptions. -/
def Obligations.JmpSetsProgramCounter : Prop :=
  (∀ (a : Byte) (rest : List Byte), decode (0x54#8 :: a :: rest) = .ok (.jmp a, rest)) ∧
  ∀ (a : Byte) (s : State),
    (8 ≤ a.toNat → exec (.jmp a) s = .next (s.raise ⟨.badRegister, a.toNat⟩)) ∧
    ∀ ra : RegIndex, ra.val = a.toNat →
      ((s.reg ra).written = true → exec (.jmp a) s = .next { s with pc := (s.reg ra).value }) ∧
      ((s.reg ra).written = false → exec (.jmp a) s = .next (s.raise ⟨.unwrittenRegister, a.toNat⟩))

/-- R144: JEQ: its encoding, its two effects (`flag = 1`: jump; `flag = 0`: fall through, the register not read), and
its exceptions. -/
def Obligations.JeqJumpsIfFlagSet : Prop :=
  (∀ (a : Byte) (rest : List Byte), decode (0x55#8 :: a :: rest) = .ok (.jeq a, rest)) ∧
  ∀ (a : Byte) (s : State),
    (8 ≤ a.toNat → exec (.jeq a) s = .next (s.raise ⟨.badRegister, a.toNat⟩)) ∧
    ∀ ra : RegIndex, ra.val = a.toNat →
      (s.flag = true → (s.reg ra).written = true → exec (.jeq a) s = .next { s with pc := (s.reg ra).value }) ∧
      (s.flag = true → (s.reg ra).written = false →
        exec (.jeq a) s = .next (s.raise ⟨.unwrittenRegister, a.toNat⟩)) ∧
      (s.flag = false → s.pc.toNat + 2 ≤ 255 →
        exec (.jeq a) s = .next { s with pc := BitVec.ofNat 8 (s.pc.toNat + 2) }) ∧
      (s.flag = false → 256 ≤ s.pc.toNat + 2 →
        exec (.jeq a) s = .next (s.raise ⟨.pcOutOfRange, s.pc.toNat + 2⟩))

/-- R145: JNE: its encoding, its two effects (`flag = 0`: jump; `flag = 1`: fall through, the register not read), and
its exceptions. -/
def Obligations.JneJumpsIfFlagClear : Prop :=
  (∀ (a : Byte) (rest : List Byte), decode (0x56#8 :: a :: rest) = .ok (.jne a, rest)) ∧
  ∀ (a : Byte) (s : State),
    (8 ≤ a.toNat → exec (.jne a) s = .next (s.raise ⟨.badRegister, a.toNat⟩)) ∧
    ∀ ra : RegIndex, ra.val = a.toNat →
      (s.flag = false → (s.reg ra).written = true → exec (.jne a) s = .next { s with pc := (s.reg ra).value }) ∧
      (s.flag = false → (s.reg ra).written = false →
        exec (.jne a) s = .next (s.raise ⟨.unwrittenRegister, a.toNat⟩)) ∧
      (s.flag = true → s.pc.toNat + 2 ≤ 255 →
        exec (.jne a) s = .next { s with pc := BitVec.ofNat 8 (s.pc.toNat + 2) }) ∧
      (s.flag = true → 256 ≤ s.pc.toNat + 2 →
        exec (.jne a) s = .next (s.raise ⟨.pcOutOfRange, s.pc.toNat + 2⟩))

/-! ### Output and halt (`44_output_halt.md`) -/

/-- R160: PRN: its encoding, its effect (one value appended to `out`), and its exceptions in order. -/
def Obligations.PrnAppendsRegisterValue : Prop :=
  (∀ (a : Byte) (rest : List Byte), decode (0x47#8 :: a :: rest) = .ok (.prn a, rest)) ∧
  ∀ (a : Byte) (s : State),
    (8 ≤ a.toNat → exec (.prn a) s = .next (s.raise ⟨.badRegister, a.toNat⟩)) ∧
    ∀ ra : RegIndex, ra.val = a.toNat →
      ((s.reg ra).written = true → s.pc.toNat + 2 ≤ 255 →
        exec (.prn a) s = .next { s with
          out := s.out ++ [(s.reg ra).value], pc := BitVec.ofNat 8 (s.pc.toNat + 2) }) ∧
      ((s.reg ra).written = false → exec (.prn a) s = .next (s.raise ⟨.unwrittenRegister, a.toNat⟩)) ∧
      ((s.reg ra).written = true → 256 ≤ s.pc.toNat + 2 →
        exec (.prn a) s = .next (s.raise ⟨.pcOutOfRange, s.pc.toNat + 2⟩))

/-- R161: HLT: its encoding and its effect (`run` is Halted, `pc` and everything else unchanged), in every state. -/
def Obligations.HltHaltsAndKeepsState : Prop :=
  (∀ rest : List Byte, decode (0x01#8 :: rest) = .ok (.hlt, rest)) ∧
  ∀ s : State, exec .hlt s = .next { s with run := .halted }

/-! ### Faults (`60_exceptions.md`) -/

/-- R171, R177: taking a fault commits the record and nothing else; the six codes are the table's. -/
def Obligations.TakingFaultCommitsOnlyRun : Prop :=
  (∀ (s : State) (r : Raise),
    s.raise r = { s with run := .faulted ⟨r.kind, r.kind.code, s.pc, s.memRead s.pc, r.detail⟩ }) ∧
  FaultKind.unknownOpcode.code = 1 ∧ FaultKind.badRegister.code = 2 ∧ FaultKind.unwrittenRegister.code = 3 ∧
  FaultKind.stackBelowZero.code = 4 ∧ FaultKind.stackAboveTop.code = 5 ∧ FaultKind.pcOutOfRange.code = 6

/-- R88, R177: a step that ends in a fault leaves registers, marks, `flag`, memory, `pc` and `out` as it found them;
the record names this instruction, and its kind and detail are those of the first applicable fault of R175 (SP is
written in every state a run reaches, `InvariantKeptByStep`). -/
def Obligations.FaultingStepChangesOnlyRun : Prop :=
  ∀ (s t : State) (rec : FaultRecord), s.run = .running → step s = .next t → t.run = .faulted rec →
    t = { s with run := .faulted rec } ∧ rec.fpc = s.pc ∧ rec.opcode = s.memRead s.pc ∧
      rec.code = rec.kind.code ∧
      ((s.reg Config.spIndex).written = true → s.stepRaise = some ⟨rec.kind, rec.detail⟩)

/-- R172: an instruction faults exactly when one of the checks the table gives it fails, with the first failing one's
fault; otherwise it completes, and no fault is taken. -/
def Obligations.InstructionsFaultExactlyByTable : Prop :=
  ∀ (i : Instr) (s : State), (s.reg Config.spIndex).written = true →
    (∀ r, firstRaise (ruleChecks i s) = some r → exec i s = .next (s.raise r)) ∧
    (firstRaise (ruleChecks i s) = none →
      ∃ t, exec i s = .next t ∧ t.run = if i = .hlt then .halted else s.run)

/-- R175: a step reports the first applicable fault in the order of the six items, and takes none when none applies. -/
def Obligations.StepReportsFirstFault : Prop :=
  ∀ s : State, s.run = .running → (s.reg Config.spIndex).written = true →
    (∀ r, s.stepRaise = some r → step s = .next (s.raise r)) ∧
    (s.stepRaise = none → ∃ t, step s = .next t ∧ t.faultFree)

/-! ### Frames -/

/-- Frame of LDI, ADD and MUL: only the destination register, `pc` and, on a fault, `run` change. -/
def Obligations.AluFrameKeepsRest : Prop :=
  ∀ (a b : Byte) (s t : State),
    (exec (.ldi a b) s = .next t ∨ exec (.add a b) s = .next t ∨ exec (.mul a b) s = .next t) →
    (∀ i : RegIndex, i.val ≠ a.toNat → t.reg i = s.reg i) ∧ t.flag = s.flag ∧ t.out = s.out ∧
    (∀ adr : Byte, t.memRead adr = s.memRead adr) ∧
    (t.run = s.run ∨ ∃ rec, t.run = .faulted rec)

/-- Frame of CMP: only `flag`, `pc` and, on a fault, `run` change. -/
def Obligations.CompareFrameKeepsRest : Prop :=
  ∀ (a b : Byte) (s t : State), exec (.cmp a b) s = .next t →
    (∀ i : RegIndex, t.reg i = s.reg i) ∧ t.out = s.out ∧
    (∀ adr : Byte, t.memRead adr = s.memRead adr) ∧
    (t.run = s.run ∨ ∃ rec, t.run = .faulted rec)

/-- Frame of PUSH and CALL: only SP (R7), `pc`, the one byte at the address `pushSlot` gives for SP and, on a fault,
`run` change; where `pushSlot` gives no address, no byte changes. -/
def Obligations.StoreFrameKeepsRest : Prop :=
  ∀ (a : Byte) (s t : State), (exec (.push a) s = .next t ∨ exec (.call a) s = .next t) →
    (∀ i : RegIndex, i ≠ Config.spIndex → t.reg i = s.reg i) ∧ t.flag = s.flag ∧ t.out = s.out ∧
    (∀ slot, pushSlot s.sp = .ok slot → ∀ adr : Byte, adr ≠ slot → t.memRead adr = s.memRead adr) ∧
    (∀ r, pushSlot s.sp = .error r → ∀ adr : Byte, t.memRead adr = s.memRead adr) ∧
    (t.run = s.run ∨ ∃ rec, t.run = .faulted rec)

/-- Frame of POP and RET: only SP (R7), POP's destination register, `pc` and, on a fault, `run` change. -/
def Obligations.PopFrameKeepsRest : Prop :=
  ∀ (a : Byte) (s t : State),
    (exec (.pop a) s = .next t →
      (∀ i : RegIndex, i ≠ Config.spIndex → i.val ≠ a.toNat → t.reg i = s.reg i) ∧ t.flag = s.flag ∧
      t.out = s.out ∧ (∀ adr : Byte, t.memRead adr = s.memRead adr) ∧
      (t.run = s.run ∨ ∃ rec, t.run = .faulted rec)) ∧
    (exec .ret s = .next t →
      (∀ i : RegIndex, i ≠ Config.spIndex → t.reg i = s.reg i) ∧ t.flag = s.flag ∧
      t.out = s.out ∧ (∀ adr : Byte, t.memRead adr = s.memRead adr) ∧
      (t.run = s.run ∨ ∃ rec, t.run = .faulted rec))

/-- Frame of JMP, JEQ and JNE: only `pc` and, on a fault, `run` change. -/
def Obligations.JumpFrameKeepsRest : Prop :=
  ∀ (a : Byte) (s t : State),
    (exec (.jmp a) s = .next t ∨ exec (.jeq a) s = .next t ∨ exec (.jne a) s = .next t) →
    (∀ i : RegIndex, t.reg i = s.reg i) ∧ t.flag = s.flag ∧ t.out = s.out ∧
    (∀ adr : Byte, t.memRead adr = s.memRead adr) ∧
    (t.run = s.run ∨ ∃ rec, t.run = .faulted rec)

/-- Frame of PRN and HLT: PRN changes only `out` (by at most one value at its end), `pc` and, on a fault, `run`; HLT
changes only `run`. -/
def Obligations.OutputHaltFrameKeepsRest : Prop :=
  ∀ (a : Byte) (s t : State),
    (exec (.prn a) s = .next t →
      (∀ i : RegIndex, t.reg i = s.reg i) ∧ t.flag = s.flag ∧
      (t.out = s.out ∨ ∃ v, t.out = s.out ++ [v]) ∧ (∀ adr : Byte, t.memRead adr = s.memRead adr) ∧
      (t.run = s.run ∨ ∃ rec, t.run = .faulted rec)) ∧
    (exec .hlt s = .next t →
      (∀ i : RegIndex, t.reg i = s.reg i) ∧ t.pc = s.pc ∧ t.flag = s.flag ∧ t.out = s.out ∧
      (∀ adr : Byte, t.memRead adr = s.memRead adr))

/-! ### Rules about the whole machine -/

/-- R27: a step that does not fetch CMP's opcode leaves the flag as it was. -/
def Obligations.OnlyCmpWritesFlag : Prop :=
  ∀ s t : State, step s = .next t → s.memRead s.pc ≠ 0xA7#8 → t.flag = s.flag

/-- R45, R57: a step writes memory only when it fetches PUSH's or CALL's opcode, and then only the cell below SP. -/
def Obligations.OnlyPushAndCallWriteMemory : Prop :=
  ∀ (s t : State) (adr : Byte), step s = .next t → t.memRead adr ≠ s.memRead adr →
    (s.memRead s.pc = 0x45#8 ∨ s.memRead s.pc = 0x50#8) ∧ adr.toNat + 1 = s.sp.toNat

/-- R34, R162: a step either leaves `out` as it was, or fetches PRN's opcode and appends the value of the register
that the operand byte names. -/
def Obligations.OnlyPrnDrivesOutput : Prop :=
  ∀ s t : State, step s = .next t →
    t.out = s.out ∨
    (s.memRead s.pc = 0x47#8 ∧ ∃ ra : RegIndex, ra.val = (s.memRead (s.pc + 1)).toNat ∧
      t.out = s.out ++ [(s.reg ra).value])

/-- R24: no step marks a register unwritten. -/
def Obligations.WrittenMarksStay : Prop :=
  ∀ (s t : State) (i : RegIndex), step s = .next t → (s.reg i).written = true → (t.reg i).written = true

/-- R30: a step changes the run state only from Running, to Halted when it fetches HLT, or to Faulted. -/
def Obligations.RunStateChangesOnlyFromRunning : Prop :=
  ∀ s t : State, step s = .next t → t.run ≠ s.run →
    s.run = .running ∧ ((t.run = .halted ∧ s.memRead s.pc = 0x01#8) ∨ ∃ rec, t.run = .faulted rec)

/-- R25, R26, R87: where a step from a running state takes no fault, `pc` moves by the instruction's length without
wrapping, except that RET, CALL, JMP and a taken JEQ or JNE set it and HLT leaves it. -/
def Obligations.ProgramCounterAdvancesByLength : Prop :=
  ∀ (s t : State) (i : Instr), s.run = .running → s.fetchDecode = .ok i → step s = .next t → t.faultFree →
    match i with
    | .ldi _ _ | .add _ _ | .mul _ _ | .cmp _ _ => t.pc.toNat = s.pc.toNat + 3
    | .prn _ | .push _ | .pop _ => t.pc.toNat = s.pc.toNat + 2
    | .jeq a => if s.flag then ∃ ra : RegIndex, ra.val = a.toNat ∧ t.pc = (s.reg ra).value
        else t.pc.toNat = s.pc.toNat + 2
    | .jne a => if s.flag then t.pc.toNat = s.pc.toNat + 2
        else ∃ ra : RegIndex, ra.val = a.toNat ∧ t.pc = (s.reg ra).value
    | .jmp a => ∃ ra : RegIndex, ra.val = a.toNat ∧ t.pc = (s.reg ra).value
    | .call a => ∃ ra : RegIndex, ra.val = a.toNat ∧ t.pc = if ra = 7 then t.sp else (s.reg ra).value
    | .ret => t.pc = s.memRead s.sp
    | .hlt => t.pc = s.pc

/-- Every step of every state answers a next state: no instruction, byte or operand makes the model stop outside its
own state. That a fault of the spec is a next state is the model's reading of R88 (log entry 2). -/
def Obligations.StepAlwaysAnswersState : Prop := ∀ s : State, ∃ t, step s = .next t

/-! ### The invariant -/

/-- The reset state meets the invariant (R24, R35; memory's canonical form is the model's, log entry 8). -/
def Obligations.InvariantAtReset : Prop := State.reset.Inv

/-- Every image load that is not refused gives a state that meets the invariant (R24, R192; memory's canonical form is
the model's, log entry 8). -/
def Obligations.InvariantAfterImageLoad : Prop :=
  ∀ (img : List Byte) (s : State), loadImage img = .next s → s.Inv

/-- Every step keeps the invariant: memory keeps its canonical form (the model's own, log entry 8), SP stays written (R24),
and a fault record describes its state, with a detail its kind allows (R31, R171). -/
def Obligations.InvariantKeptByStep : Prop := ∀ s t : State, s.Inv → step s = .next t → t.Inv

/-! ### What no program can tell -/

/-- R24, R35: two states that differ at most in the values stored under unwritten marks step alike, and the host
observes the same of both; so the value the model stores there (log entry 1) is never used. -/
def Obligations.UnwrittenValuesNeverObserved : Prop :=
  ∀ s t s' : State, s.Alike t → step s = .next s' →
    ∃ t', step t = .next t' ∧ s'.Alike t' ∧ s'.observe = t'.observe

/-! ### Properties over several instructions -/

/-- R123 (P3): after PUSH Ra and any balanced sequence of PUSH and POP in which no POP names R7, the matching POP Rb
(Rb not R7) gives the pushed byte, and SP is what it was, when no step faults. -/
def Obligations.PopReturnsMatchingPush : Prop :=
  ∀ (a b : Byte) (w : List Instr) (s t : State) (ra rb : RegIndex), ra.val = a.toNat → rb.val = b.toNat →
    b ≠ 0x07#8 → BalancedStackOps w → s.Inv → s.run = .running →
    execSeq (.push a :: w ++ [.pop b]) s = some t →
    (t.reg rb).value = (if ra = 7 then BitVec.ofNat 8 (s.sp.toNat - 1) else (s.reg ra).value) ∧ t.sp = s.sp

/-- R147 (P4): a CALL at address c that completes and reaches a RET is followed by a return to c + 2 with SP
unchanged. -/
def Obligations.ReturnFollowsCall : Prop :=
  ∀ s t : State, s.Inv → s.run = .running → s.memRead s.pc = 0x50#8 → step s = .next t → t.run = .running →
    t.memRead t.pc = 0x11#8 →
    ∃ u, step t = .next u ∧ u.run = .running ∧ u.pc.toNat = s.pc.toNat + 2 ∧ u.sp = s.sp

/-- R147 (P5), R103, R144, R145: after a CMP that completes, JEQ jumps and JNE falls through by 2 if the values were
equal, and the reverse if they were not. -/
def Obligations.ConditionalJumpsFollowCompare : Prop :=
  ∀ (a b c : Byte) (s t : State) (ra rb rc : RegIndex), ra.val = a.toNat → rb.val = b.toNat → rc.val = c.toNat →
    exec (.cmp a b) s = .next t → t.faultFree → (s.reg rc).written = true → t.pc.toNat + 2 ≤ 255 →
    ((s.reg ra).value = (s.reg rb).value →
      exec (.jeq c) t = .next { t with pc := (s.reg rc).value } ∧
      exec (.jne c) t = .next { t with pc := BitVec.ofNat 8 (t.pc.toNat + 2) }) ∧
    ((s.reg ra).value ≠ (s.reg rb).value →
      exec (.jne c) t = .next { t with pc := (s.reg rc).value } ∧
      exec (.jeq c) t = .next { t with pc := BitVec.ofNat 8 (t.pc.toNat + 2) })

/-- P1 of `95_test_vectors.md` E6 (R100, R160): loading any register with any value and then printing it appends
exactly that value. -/
def Obligations.PrintAfterLoadEmitsValue : Prop :=
  ∀ (a v : Byte) (s : State), a.toNat < 8 → s.pc.toNat + 5 ≤ 255 →
    ∃ t u, exec (.ldi a v) s = .next t ∧ exec (.prn a) t = .next u ∧ u.out = s.out ++ [v] ∧ u.run = s.run

/-- R55: a byte that PUSH stores is what the very next fetch reads when the next instruction starts at that cell. -/
def Obligations.NextFetchSeesPushedByte : Prop :=
  ∀ (s t : State) (ra : RegIndex), s.Inv → s.run = .running → s.memRead s.pc = 0x45#8 →
    ra.val = (s.memRead (s.pc + 1)).toNat → step s = .next t → t.run = .running → t.pc = t.sp →
    t.fetch.op = if ra = 7 then t.sp else (s.reg ra).value

/-! ### Memory, reset and the end of a run -/

/-- R42, R43: a write sets its cell and changes no other cell, no register and nothing else. That memory keeps its
canonical form is no rule of the spec: the form is the model's own (log entry 8, DEDUCED). -/
def Obligations.MemoryWriteSetsOneCell : Prop :=
  ∀ (s : State) (adr v : Byte), s.Inv →
    (s.memWrite adr v).memRead adr = v ∧
    (∀ x, x ≠ adr → (s.memWrite adr v).memRead x = s.memRead x) ∧
    Memory.wf (s.memWrite adr v).mem ∧
    (∃ m, s.memWrite adr v = { s with mem := m })

/-- The canonical form: two memories that read alike at every address of the machine are the same data (R32; the
form is the model's own, log entry 8). -/
def Obligations.EqualReadsMeanEqualMemory : Prop :=
  ∀ m n : Memory, Memory.wf m → Memory.wf n →
    (∀ adr : Byte, Memory.read m adr.toNat = Memory.read n adr.toNat) → m = n

/-- R191 to R193: reset and the load of an image of at most 256 bytes leave the image at 0..len-1, zero above it, and
the reset value of every other field, running from address 0; a longer image is refused; an empty image is allowed
and its first step faults with `UnknownOpcode(0)` at address 0. -/
def Obligations.ImageLoadStartsRun : Prop :=
  (∀ img : List Byte, img.length ≤ 256 →
    ∃ s, loadImage img = .next s ∧
      (∀ (k : Nat) (h : k < img.length), s.memRead (BitVec.ofNat 8 k) = img[k]) ∧
      (∀ k : Nat, img.length ≤ k → k < 256 → s.memRead (BitVec.ofNat 8 k) = 0x00#8) ∧
      s.run = .running ∧ s.pc = 0x00#8 ∧ s.flag = false ∧ s.out = [] ∧ s.reg 7 = ⟨0xF4#8, true⟩ ∧
      (∀ i : RegIndex, i.val < 7 → (s.reg i).written = false)) ∧
  (∀ img : List Byte, 256 < img.length → loadImage img = .refused (.imageTooLong img.length)) ∧
  (∃ s t, loadImage [] = .next s ∧ step s = .next t ∧ t = { s with run := .faulted ⟨.unknownOpcode, 1, 0, 0, 0⟩ })

/-- R24, R35: what the state after reset holds before an image is placed: the spec's values and marks, nothing else.
That this state is also Running (the empty image) is log entry 5. -/
def Obligations.ResetLeavesSpecValues : Prop :=
  State.reset.reg 7 = ⟨0xF4#8, true⟩ ∧ (∀ i : RegIndex, i ≠ 7 → (State.reset.reg i).written = false) ∧
  State.reset.pc = 0x00#8 ∧ State.reset.flag = false ∧ (∀ adr : Byte, State.reset.memRead adr = 0x00#8) ∧
  State.reset.run = .running ∧ State.reset.out = []

/-- R198, R199: a run that ended within a budget ends in the same state under any larger one, and a run whose budget
ran out is still Running: running out is no end. -/
def Obligations.RunBudgetOnlyDelaysTheEnd : Prop :=
  ∀ (n : Nat) (s t : State),
    (runFor n s = .ended t → t.run ≠ .running ∧ ∀ k, runFor (n + k) s = .ended t) ∧
    (runFor n s = .notEnded t → t.run = .running)
end

