-- ==== Sys2Proof/Laws/Decode.lean ====
section
/-! SUPPORT. The opcode byte of each instruction, both ways: the encoder's byte in hex (R65), and the byte a decoded
instruction had. -/

namespace Sys2Proof

theorem opcode_hlt : Instr.hlt.opcode = 0x01#8 := rfl
theorem opcode_ret : Instr.ret.opcode = 0x11#8 := rfl
theorem opcode_push (a : Byte) : (Instr.push a).opcode = 0x45#8 := rfl
theorem opcode_pop (a : Byte) : (Instr.pop a).opcode = 0x46#8 := rfl
theorem opcode_prn (a : Byte) : (Instr.prn a).opcode = 0x47#8 := rfl
theorem opcode_call (a : Byte) : (Instr.call a).opcode = 0x50#8 := rfl
theorem opcode_jmp (a : Byte) : (Instr.jmp a).opcode = 0x54#8 := rfl
theorem opcode_jeq (a : Byte) : (Instr.jeq a).opcode = 0x55#8 := rfl
theorem opcode_jne (a : Byte) : (Instr.jne a).opcode = 0x56#8 := rfl
theorem opcode_ldi (a imm : Byte) : (Instr.ldi a imm).opcode = 0x82#8 := rfl
theorem opcode_add (a b : Byte) : (Instr.add a b).opcode = 0xA0#8 := rfl
theorem opcode_mul (a b : Byte) : (Instr.mul a b).opcode = 0xA2#8 := rfl
theorem opcode_cmp (a b : Byte) : (Instr.cmp a b).opcode = 0xA7#8 := rfl

/-- A decoded instruction's opcode is the byte that was decoded (R66). -/
theorem decodeLatched_opcode {op a b : Byte} {i : Instr} (h : decodeLatched op a b = .ok i) : op = i.opcode := by
  unfold decodeLatched at h
  split at h <;> first | (cases h; rfl) | simp at h

/-- A byte that is not decoded is reported as it is (R68). -/
theorem decodeLatched_error {op a b : Byte} {e : DecodeError} (h : decodeLatched op a b = .error e) :
    e = .unknownOpcode op := by
  unfold decodeLatched at h
  split at h <;> simp_all

end Sys2Proof
end

