-- ==== Sys2Proof/Laws/State.lean ====
section
/-! SUPPORT. One lemma for each field of State under each update, so that no proof unfolds a record update. -/

namespace Sys2Proof.Machine

variable (s : State)

@[simp] theorem State.writeReg_pc (i : RegIndex) (v : Byte) : (s.writeReg i v).pc = s.pc := rfl
@[simp] theorem State.writeReg_flag (i : RegIndex) (v : Byte) : (s.writeReg i v).flag = s.flag := rfl
@[simp] theorem State.writeReg_mem (i : RegIndex) (v : Byte) : (s.writeReg i v).mem = s.mem := rfl
@[simp] theorem State.writeReg_run (i : RegIndex) (v : Byte) : (s.writeReg i v).run = s.run := rfl
@[simp] theorem State.writeReg_out (i : RegIndex) (v : Byte) : (s.writeReg i v).out = s.out := rfl
@[simp] theorem State.writeReg_memRead (i : RegIndex) (v : Byte) (adr : Byte) : (s.writeReg i v).memRead adr = s.memRead adr := rfl

@[simp] theorem State.writeSp_pc (v : Byte) : (s.writeSp v).pc = s.pc := rfl
@[simp] theorem State.writeSp_flag (v : Byte) : (s.writeSp v).flag = s.flag := rfl
@[simp] theorem State.writeSp_mem (v : Byte) : (s.writeSp v).mem = s.mem := rfl
@[simp] theorem State.writeSp_run (v : Byte) : (s.writeSp v).run = s.run := rfl
@[simp] theorem State.writeSp_out (v : Byte) : (s.writeSp v).out = s.out := rfl
@[simp] theorem State.writeSp_memRead (v : Byte) (adr : Byte) : (s.writeSp v).memRead adr = s.memRead adr := rfl

@[simp] theorem State.memWrite_reg (addr v : Byte) (j : RegIndex) : (s.memWrite addr v).reg j = s.reg j := rfl
@[simp] theorem State.memWrite_pc (addr v : Byte) : (s.memWrite addr v).pc = s.pc := rfl
@[simp] theorem State.memWrite_flag (addr v : Byte) : (s.memWrite addr v).flag = s.flag := rfl
@[simp] theorem State.memWrite_mem (addr v : Byte) : (s.memWrite addr v).mem = Memory.write s.mem addr.toNat v := rfl
@[simp] theorem State.memWrite_run (addr v : Byte) : (s.memWrite addr v).run = s.run := rfl
@[simp] theorem State.memWrite_out (addr v : Byte) : (s.memWrite addr v).out = s.out := rfl

@[simp] theorem State.setPc_reg (t : Byte) (j : RegIndex) : (s.setPc t).reg j = s.reg j := rfl
@[simp] theorem State.setPc_pc (t : Byte) : (s.setPc t).pc = t := rfl
@[simp] theorem State.setPc_flag (t : Byte) : (s.setPc t).flag = s.flag := rfl
@[simp] theorem State.setPc_mem (t : Byte) : (s.setPc t).mem = s.mem := rfl
@[simp] theorem State.setPc_run (t : Byte) : (s.setPc t).run = s.run := rfl
@[simp] theorem State.setPc_out (t : Byte) : (s.setPc t).out = s.out := rfl
@[simp] theorem State.setPc_memRead (t : Byte) (adr : Byte) : (s.setPc t).memRead adr = s.memRead adr := rfl

@[simp] theorem State.setFlag_reg (f : Bool) (j : RegIndex) : (s.setFlag f).reg j = s.reg j := rfl
@[simp] theorem State.setFlag_pc (f : Bool) : (s.setFlag f).pc = s.pc := rfl
@[simp] theorem State.setFlag_flag (f : Bool) : (s.setFlag f).flag = f := rfl
@[simp] theorem State.setFlag_mem (f : Bool) : (s.setFlag f).mem = s.mem := rfl
@[simp] theorem State.setFlag_run (f : Bool) : (s.setFlag f).run = s.run := rfl
@[simp] theorem State.setFlag_out (f : Bool) : (s.setFlag f).out = s.out := rfl
@[simp] theorem State.setFlag_memRead (f : Bool) (adr : Byte) : (s.setFlag f).memRead adr = s.memRead adr := rfl

@[simp] theorem State.emit_reg (v : Byte) (j : RegIndex) : (s.emit v).reg j = s.reg j := rfl
@[simp] theorem State.emit_pc (v : Byte) : (s.emit v).pc = s.pc := rfl
@[simp] theorem State.emit_flag (v : Byte) : (s.emit v).flag = s.flag := rfl
@[simp] theorem State.emit_mem (v : Byte) : (s.emit v).mem = s.mem := rfl
@[simp] theorem State.emit_run (v : Byte) : (s.emit v).run = s.run := rfl
@[simp] theorem State.emit_out (v : Byte) : (s.emit v).out = s.out ++ [v] := rfl
@[simp] theorem State.emit_memRead (v : Byte) (adr : Byte) : (s.emit v).memRead adr = s.memRead adr := rfl

@[simp] theorem State.halt_reg (j : RegIndex) : (s.halt).reg j = s.reg j := rfl
@[simp] theorem State.halt_pc : (s.halt).pc = s.pc := rfl
@[simp] theorem State.halt_flag : (s.halt).flag = s.flag := rfl
@[simp] theorem State.halt_mem : (s.halt).mem = s.mem := rfl
@[simp] theorem State.halt_run : (s.halt).run = .halted := rfl
@[simp] theorem State.halt_out : (s.halt).out = s.out := rfl
@[simp] theorem State.halt_memRead (adr : Byte) : (s.halt).memRead adr = s.memRead adr := rfl

@[simp] theorem State.setRunning_reg (j : RegIndex) : (s.setRunning).reg j = s.reg j := rfl
@[simp] theorem State.setRunning_pc : (s.setRunning).pc = s.pc := rfl
@[simp] theorem State.setRunning_flag : (s.setRunning).flag = s.flag := rfl
@[simp] theorem State.setRunning_mem : (s.setRunning).mem = s.mem := rfl
@[simp] theorem State.setRunning_run : (s.setRunning).run = .running := rfl
@[simp] theorem State.setRunning_out : (s.setRunning).out = s.out := rfl
@[simp] theorem State.setRunning_memRead (adr : Byte) : (s.setRunning).memRead adr = s.memRead adr := rfl

@[simp] theorem State.raise_reg (r : Raise) (j : RegIndex) : (s.raise r).reg j = s.reg j := rfl
@[simp] theorem State.raise_pc (r : Raise) : (s.raise r).pc = s.pc := rfl
@[simp] theorem State.raise_flag (r : Raise) : (s.raise r).flag = s.flag := rfl
@[simp] theorem State.raise_mem (r : Raise) : (s.raise r).mem = s.mem := rfl
@[simp] theorem State.raise_run (r : Raise) : (s.raise r).run = .faulted (s.faultRecord r) := rfl
@[simp] theorem State.raise_out (r : Raise) : (s.raise r).out = s.out := rfl
@[simp] theorem State.raise_memRead (r : Raise) (adr : Byte) : (s.raise r).memRead adr = s.memRead adr := rfl

@[simp] theorem State.pushByte_pc (slot v : Byte) : (s.pushByte slot v).pc = s.pc := rfl
@[simp] theorem State.pushByte_flag (slot v : Byte) : (s.pushByte slot v).flag = s.flag := rfl
@[simp] theorem State.pushByte_mem (slot v : Byte) : (s.pushByte slot v).mem = Memory.write s.mem slot.toNat v := rfl
@[simp] theorem State.pushByte_run (slot v : Byte) : (s.pushByte slot v).run = s.run := rfl
@[simp] theorem State.pushByte_out (slot v : Byte) : (s.pushByte slot v).out = s.out := rfl

/-- Reading register `j` after writing register `i` (R24): the new value, marked written, or the old register. -/
@[simp] theorem State.writeReg_reg (i : RegIndex) (v : Byte) (j : RegIndex) :
    (s.writeReg i v).reg j = if j = i then ⟨v, true⟩ else s.reg j := by
  simp only [State.reg, State.writeReg, Vector.getElem_set, Fin.ext_iff, eq_comm]

@[simp] theorem State.writeSp_reg (v : Byte) (j : RegIndex) :
    (s.writeSp v).reg j = if j = Config.spIndex then ⟨v, true⟩ else s.reg j :=
  s.writeReg_reg Config.spIndex v j

@[simp] theorem State.pushByte_reg (slot v : Byte) (j : RegIndex) :
    (s.pushByte slot v).reg j = if j = Config.spIndex then ⟨slot, true⟩ else s.reg j :=
  s.writeSp_reg slot j

@[simp] theorem stopped_eq : stopped s = s := rfl

/-- Two states with the same fields are the same state; registers are compared one by one. -/
theorem State.ext_reg {s t : State} (regs : ∀ i, s.reg i = t.reg i) (pc : s.pc = t.pc) (flag : s.flag = t.flag)
    (mem : s.mem = t.mem) (run : s.run = t.run) (out : s.out = t.out) : s = t := by
  cases s; cases t
  simp only [State.reg] at regs
  simp only [State.mk.injEq] at *
  exact ⟨Vector.ext fun i hi => regs ⟨i, hi⟩, pc, flag, mem, run, out⟩

end Sys2Proof.Machine
end

