-- ==== Sys2Proof/Laws/Ops.lean ====
section
/-! SUPPORT. For each shared operation, one lemma that says what it answers, both ways; proofs cite these and do
not unfold the operation. -/

namespace Sys2Proof.Machine

theorem except_bind_ok {α β : Type} {x : Except Raise α} {f : α → Except Raise β} {b : β} :
    (x >>= f) = .ok b ↔ ∃ a, x = .ok a ∧ f a = .ok b := by
  cases x <;> simp [bind, Except.bind]

theorem except_bind_error {α β : Type} {x : Except Raise α} {f : α → Except Raise β} {r : Raise} :
    (x >>= f) = .error r ↔ x = .error r ∨ ∃ a, x = .ok a ∧ f a = .error r := by
  cases x <;> simp [bind, Except.bind]

/-- The end of a rule (R87, R88). -/
theorem commit_eq_next {s t : State} {x : Except Raise State} :
    commit s x = .next t ↔ x = .ok t ∨ ∃ r, x = .error r ∧ t = s.raise r := by
  cases x <;> simp [commit, eq_comm]

theorem commit_ok (s t : State) : commit s (.ok t) = .next t := rfl

theorem commit_error (s : State) (r : Raise) : commit s (.error r) = .next (s.raise r) := rfl

/-- Every rule ends in a next state. -/
theorem commit_next (s : State) (x : Except Raise State) : ∃ t, commit s x = .next t := by
  cases x
  · exact ⟨_, rfl⟩
  · exact ⟨_, rfl⟩

variable {s : State}

theorem readReg_ok {i : RegIndex} {v : Byte} :
    s.readReg i = .ok v ↔ (s.reg i).written = true ∧ v = (s.reg i).value := by
  by_cases h : (s.reg i).written = true <;> simp [State.readReg, h, eq_comm]

theorem readReg_error {i : RegIndex} {r : Raise} :
    s.readReg i = .error r ↔ (s.reg i).written = false ∧ r = ⟨.unwrittenRegister, i.val⟩ := by
  by_cases h : (s.reg i).written = true <;> simp [State.readReg, h, eq_comm]

theorem readReg_written {i : RegIndex} (h : (s.reg i).written = true) : s.readReg i = .ok (s.reg i).value := by
  simp [State.readReg, h]

theorem checkReg_ok {b : Byte} {r : RegIndex} : checkReg b = .ok r ↔ r.val = b.toNat := by
  unfold checkReg
  split
  · simp [Fin.ext_iff, eq_comm]
  · simp only [reduceCtorEq, false_iff]
    omega

theorem checkReg_error {b : Byte} {r : Raise} :
    checkReg b = .error r ↔ 8 ≤ b.toNat ∧ r = ⟨.badRegister, b.toNat⟩ := by
  unfold checkReg
  split
  · simp only [reduceCtorEq, false_iff]
    omega
  · simp [eq_comm]
    omega

theorem checkReg_of_index {b : Byte} {r : RegIndex} (h : r.val = b.toNat) : checkReg b = .ok r := checkReg_ok.mpr h

theorem fallthrough_ok {n : Nat} {np : Byte} :
    s.fallthrough n = .ok np ↔ s.pc.toNat + 1 + n ≤ 255 ∧ np = BitVec.ofNat 8 (s.pc.toNat + 1 + n) := by
  unfold State.fallthrough
  split
  · simp only [reduceCtorEq, false_iff]
    omega
  · simp [eq_comm]
    omega

theorem fallthrough_error {n : Nat} {r : Raise} :
    s.fallthrough n = .error r ↔ 255 < s.pc.toNat + 1 + n ∧ r = ⟨.pcOutOfRange, s.pc.toNat + 1 + n⟩ := by
  unfold State.fallthrough
  split <;> simp_all [eq_comm]

theorem operandCheck_ok {n : Nat} {u : Unit} : s.operandCheck n = .ok u ↔ s.pc.toNat + n ≤ 255 := by
  unfold State.operandCheck
  split <;> simp_all

theorem operandCheck_error {n : Nat} {r : Raise} :
    s.operandCheck n = .error r ↔ 255 < s.pc.toNat + n ∧ r = ⟨.pcOutOfRange, s.pc.toNat + n⟩ := by
  unfold State.operandCheck
  split <;> simp_all [eq_comm]

theorem returnAddress_ok {ret : Byte} :
    s.returnAddress = .ok ret ↔ s.pc.toNat + 2 ≤ 255 ∧ ret = BitVec.ofNat 8 (s.pc.toNat + 2) := by
  unfold State.returnAddress
  split
  · simp only [reduceCtorEq, false_iff]
    omega
  · simp [eq_comm]
    omega

theorem returnAddress_error {r : Raise} :
    s.returnAddress = .error r ↔ 255 < s.pc.toNat + 2 ∧ r = ⟨.pcOutOfRange, s.pc.toNat + 2⟩ := by
  unfold State.returnAddress
  split <;> simp_all [eq_comm]

theorem pushSlot_ok {sp slot : Byte} :
    pushSlot sp = .ok slot ↔ 1 ≤ sp.toNat ∧ slot = BitVec.ofNat 8 (sp.toNat - 1) := by
  unfold pushSlot
  split
  · simp only [reduceCtorEq, false_iff]
    omega
  · simp [eq_comm]
    omega

theorem pushSlot_error {sp : Byte} {r : Raise} :
    pushSlot sp = .error r ↔ sp.toNat = 0 ∧ r = ⟨.stackBelowZero, 0⟩ := by
  unfold pushSlot
  split <;> simp_all [eq_comm]

theorem popPointer_ok {p nsp : Byte} :
    popPointer p = .ok nsp ↔ p.toNat ≤ 254 ∧ nsp = BitVec.ofNat 8 (p.toNat + 1) := by
  unfold popPointer
  split
  · simp only [reduceCtorEq, false_iff]
    omega
  · simp [eq_comm]
    omega

theorem popPointer_error {p : Byte} {r : Raise} :
    popPointer p = .error r ↔ p.toNat = 255 ∧ r = ⟨.stackAboveTop, 256⟩ := by
  have := p.isLt
  unfold popPointer
  split
  next h =>
    have h255 : p.toNat = 255 := by omega
    simp [h255, eq_comm]
  next h =>
    simp only [reduceCtorEq, false_iff]
    omega

/-- Everything a rule can raise once decode and the operand check have passed (R171, R172); `n` is the operand
count. -/
inductive RuleRaise (s : State) (n : Nat) : Raise → Prop where
  | badRegister (b : Byte) (h : 8 ≤ b.toNat) : RuleRaise s n ⟨.badRegister, b.toNat⟩
  | unwrittenRegister (i : RegIndex) (h : (s.reg i).written = false) : RuleRaise s n ⟨.unwrittenRegister, i.val⟩
  | stackBelowZero : RuleRaise s n ⟨.stackBelowZero, 0⟩
  | stackAboveTop : RuleRaise s n ⟨.stackAboveTop, 256⟩
  | pcOutOfRange (h : 255 < s.pc.toNat + 1 + n) : RuleRaise s n ⟨.pcOutOfRange, s.pc.toNat + 1 + n⟩

variable {n : Nat} {r : Raise}

theorem RuleRaise.of_checkReg {b : Byte} (h : checkReg b = .error r) : RuleRaise s n r := by
  obtain ⟨hb, rfl⟩ := checkReg_error.mp h
  exact .badRegister b hb

theorem RuleRaise.of_readReg {i : RegIndex} (h : s.readReg i = .error r) : RuleRaise s n r := by
  obtain ⟨hi, rfl⟩ := readReg_error.mp h
  exact .unwrittenRegister i hi

theorem RuleRaise.of_pushSlot {sp : Byte} (h : pushSlot sp = .error r) : RuleRaise s n r := by
  obtain ⟨-, rfl⟩ := pushSlot_error.mp h
  exact .stackBelowZero

theorem RuleRaise.of_popPointer {p : Byte} (h : popPointer p = .error r) : RuleRaise s n r := by
  obtain ⟨-, rfl⟩ := popPointer_error.mp h
  exact .stackAboveTop

theorem RuleRaise.of_fallthrough (h : s.fallthrough n = .error r) : RuleRaise s n r := by
  obtain ⟨hp, rfl⟩ := fallthrough_error.mp h
  exact .pcOutOfRange hp

theorem RuleRaise.of_returnAddress (h : s.returnAddress = .error r) : RuleRaise s 1 r := by
  obtain ⟨hp, rfl⟩ := returnAddress_error.mp h
  exact .pcOutOfRange hp

theorem readOperand_ok {a v : Byte} :
    s.readOperand a = .ok v ↔ ∃ ra : RegIndex, ra.val = a.toNat ∧ (s.reg ra).written = true ∧ v = (s.reg ra).value := by
  simp only [State.readOperand, except_bind_ok, checkReg_ok, readReg_ok]

theorem RuleRaise.of_readOperand {a : Byte} (h : s.readOperand a = .error r) : RuleRaise s n r := by
  rcases except_bind_error.mp h with h | ⟨ra, -, h⟩
  · exact .of_checkReg h
  · exact .of_readReg h

theorem readPair_ok {a b : Byte} {p : OperandPair} :
    s.readPair a b = .ok p ↔ p.dest.val = a.toNat ∧ (s.reg p.dest).written = true ∧ p.va = (s.reg p.dest).value ∧
      ∃ rb : RegIndex, rb.val = b.toNat ∧ (s.reg rb).written = true ∧ p.vb = (s.reg rb).value := by
  obtain ⟨dest, va, vb⟩ := p
  simp only [State.readPair, except_bind_ok, checkReg_ok, readReg_ok, Except.ok.injEq, OperandPair.mk.injEq]
  constructor
  · rintro ⟨ra, ha, rb, hb, _, ⟨hwa, rfl⟩, _, ⟨hwb, rfl⟩, rfl, rfl, rfl⟩
    exact ⟨ha, hwa, rfl, rb, hb, hwb, rfl⟩
  · rintro ⟨ha, hwa, rfl, rb, hb, hwb, rfl⟩
    exact ⟨dest, ha, rb, hb, _, ⟨hwa, rfl⟩, _, ⟨hwb, rfl⟩, rfl, rfl, rfl⟩

theorem RuleRaise.of_readPair {a b : Byte} (h : s.readPair a b = .error r) : RuleRaise s n r := by
  rcases except_bind_error.mp h with h | ⟨ra, -, h⟩
  · exact .of_checkReg h
  rcases except_bind_error.mp h with h | ⟨rb, -, h⟩
  · exact .of_checkReg h
  rcases except_bind_error.mp h with h | ⟨va, -, h⟩
  · exact .of_readReg h
  rcases except_bind_error.mp h with h | ⟨vb, -, h⟩
  · exact .of_readReg h
  · simp at h

theorem readPushOperand_ok {a : Byte} {p : PushOperand} :
    s.readPushOperand a = .ok p ↔ ∃ ra : RegIndex, ra.val = a.toNat ∧ (s.reg Config.spIndex).written = true ∧
      (s.reg ra).written = true ∧ 1 ≤ (s.reg Config.spIndex).value.toNat ∧
      p.slot = BitVec.ofNat 8 ((s.reg Config.spIndex).value.toNat - 1) ∧
      p.value = if ra = Config.spIndex then p.slot else (s.reg ra).value := by
  obtain ⟨slot, value⟩ := p
  simp only [State.readPushOperand, State.readSp, except_bind_ok, checkReg_ok, readReg_ok, pushSlot_ok,
    Except.ok.injEq, PushOperand.mk.injEq]
  constructor
  · rintro ⟨ra, ha, _, ⟨hs, rfl⟩, _, ⟨hw, rfl⟩, _, ⟨h1, rfl⟩, rfl, rfl⟩
    exact ⟨ra, ha, hs, hw, h1, rfl, rfl⟩
  · rintro ⟨ra, ha, hs, hw, h1, rfl, rfl⟩
    exact ⟨ra, ha, _, ⟨hs, rfl⟩, _, ⟨hw, rfl⟩, _, ⟨h1, rfl⟩, rfl, rfl⟩

theorem RuleRaise.of_readPushOperand {a : Byte} (h : s.readPushOperand a = .error r) : RuleRaise s n r := by
  rcases except_bind_error.mp h with h | ⟨ra, -, h⟩
  · exact .of_checkReg h
  rcases except_bind_error.mp h with h | ⟨sp, -, h⟩
  · exact .of_readReg h
  rcases except_bind_error.mp h with h | ⟨v, -, h⟩
  · exact .of_readReg h
  rcases except_bind_error.mp h with h | ⟨slot, -, h⟩
  · exact .of_pushSlot h
  · simp at h

end Sys2Proof.Machine
end

