-- ==== Sys2Proof/Laws/Exec.lean ====
section
/-! SUPPORT. Said once: everything an instruction can do. `Completes i s t` spells out, for each instruction, when
its rule runs to its end and which state it commits; `exec_next_cases` says that a next state is either that one or
the state with one fault taken. Claims about exec cite these two lemmas. -/

namespace Sys2Proof.Machine

/-- The instruction's rule runs to its end in `s` and commits `t`. -/
def Completes (i : Instr) (s t : State) : Prop :=
  match i with
  | .hlt => t = s.halt
  | .ret =>
    (s.reg Config.spIndex).written = true ∧ (s.reg Config.spIndex).value.toNat ≤ 254 ∧
      t = (s.writeSp (BitVec.ofNat 8 ((s.reg Config.spIndex).value.toNat + 1))).setPc
            (s.memRead (s.reg Config.spIndex).value)
  | .push a =>
    ∃ p, s.readPushOperand a = .ok p ∧ s.pc.toNat + 2 ≤ 255 ∧
      t = (s.pushByte p.slot p.value).setPc (BitVec.ofNat 8 (s.pc.toNat + 2))
  | .pop a =>
    ∃ (r : RegIndex) (nsp : Byte), r.val = a.toNat ∧ (s.reg Config.spIndex).written = true ∧
      popPointer (if r = Config.spIndex then s.memRead (s.reg Config.spIndex).value
        else (s.reg Config.spIndex).value) = .ok nsp ∧ s.pc.toNat + 2 ≤ 255 ∧
      t = ((s.writeReg r (s.memRead (s.reg Config.spIndex).value)).writeSp nsp).setPc
            (BitVec.ofNat 8 (s.pc.toNat + 2))
  | .prn a =>
    ∃ v, s.readOperand a = .ok v ∧ s.pc.toNat + 2 ≤ 255 ∧ t = (s.emit v).setPc (BitVec.ofNat 8 (s.pc.toNat + 2))
  | .call a =>
    ∃ p, s.readPushOperand a = .ok p ∧ s.pc.toNat + 2 ≤ 255 ∧
      t = (s.pushByte p.slot (BitVec.ofNat 8 (s.pc.toNat + 2))).setPc p.value
  | .jmp a => ∃ v, s.readOperand a = .ok v ∧ t = s.setPc v
  | .jeq a =>
    ∃ r, checkReg a = .ok r ∧
      ((s.flag = true ∧ (s.reg r).written = true ∧ t = s.setPc (s.reg r).value) ∨
        (s.flag = false ∧ s.pc.toNat + 2 ≤ 255 ∧ t = s.setPc (BitVec.ofNat 8 (s.pc.toNat + 2))))
  | .jne a =>
    ∃ r, checkReg a = .ok r ∧
      ((s.flag = false ∧ (s.reg r).written = true ∧ t = s.setPc (s.reg r).value) ∨
        (s.flag = true ∧ s.pc.toNat + 2 ≤ 255 ∧ t = s.setPc (BitVec.ofNat 8 (s.pc.toNat + 2))))
  | .ldi a imm =>
    ∃ r, checkReg a = .ok r ∧ s.pc.toNat + 3 ≤ 255 ∧
      t = (s.writeReg r imm).setPc (BitVec.ofNat 8 (s.pc.toNat + 3))
  | .add a b =>
    ∃ p, s.readPair a b = .ok p ∧ s.pc.toNat + 3 ≤ 255 ∧
      t = (s.writeReg p.dest (aluAdd p.va p.vb)).setPc (BitVec.ofNat 8 (s.pc.toNat + 3))
  | .mul a b =>
    ∃ p, s.readPair a b = .ok p ∧ s.pc.toNat + 3 ≤ 255 ∧
      t = (s.writeReg p.dest (aluMul p.va p.vb)).setPc (BitVec.ofNat 8 (s.pc.toNat + 3))
  | .cmp a b =>
    ∃ p, s.readPair a b = .ok p ∧ s.pc.toNat + 3 ≤ 255 ∧
      t = (s.setFlag (compareFlag p.va p.vb)).setPc (BitVec.ofNat 8 (s.pc.toNat + 3))

/-- Every instruction answers a next state. -/
theorem exec_next (i : Instr) (s : State) : ∃ t, exec i s = .next t := by
  cases i
  case hlt => exact ⟨s.halt, rfl⟩
  all_goals exact commit_next s _

variable {s : State}

theorem fallthrough_one_ok {np : Byte} :
    s.fallthrough 1 = .ok np ↔ s.pc.toNat + 2 ≤ 255 ∧ np = BitVec.ofNat 8 (s.pc.toNat + 2) := fallthrough_ok

theorem fallthrough_two_ok {np : Byte} :
    s.fallthrough 2 = .ok np ↔ s.pc.toNat + 3 ≤ 255 ∧ np = BitVec.ofNat 8 (s.pc.toNat + 3) := fallthrough_ok

theorem binaryAlu_ok {f : Byte → Byte → Byte} {a b : Byte} {t : State} :
    s.binaryAlu f a b = .ok t ↔ ∃ p, s.readPair a b = .ok p ∧ s.pc.toNat + 3 ≤ 255 ∧
      t = (s.writeReg p.dest (f p.va p.vb)).setPc (BitVec.ofNat 8 (s.pc.toNat + 3)) := by
  simp only [State.binaryAlu, except_bind_ok, fallthrough_two_ok, Except.ok.injEq]
  constructor
  · rintro ⟨p, hp, _, ⟨h3, rfl⟩, rfl⟩
    exact ⟨p, hp, h3, rfl⟩
  · rintro ⟨p, hp, h3, rfl⟩
    exact ⟨p, hp, _, ⟨h3, rfl⟩, rfl⟩

theorem RuleRaise.of_binaryAlu {f : Byte → Byte → Byte} {a b : Byte} {r : Raise}
    (h : s.binaryAlu f a b = .error r) : RuleRaise s 2 r := by
  rcases except_bind_error.mp h with h | ⟨p, -, h⟩
  · exact .of_readPair h
  rcases except_bind_error.mp h with h | ⟨np, -, h⟩
  · exact .of_fallthrough h
  · simp at h

theorem condJump_ok {taken : Bool} {a : Byte} {t : State} :
    s.condJump taken a = .ok t ↔ ∃ r, checkReg a = .ok r ∧
      ((taken = true ∧ (s.reg r).written = true ∧ t = s.setPc (s.reg r).value) ∨
        (taken = false ∧ s.pc.toNat + 2 ≤ 255 ∧ t = s.setPc (BitVec.ofNat 8 (s.pc.toNat + 2)))) := by
  cases taken <;>
    simp only [State.condJump, except_bind_ok, readReg_ok, fallthrough_one_ok, Except.ok.injEq, true_and, false_and,
      or_false, false_or, reduceCtorEq]
  · constructor
    · rintro ⟨r, hr, _, ⟨h2, rfl⟩, rfl⟩
      exact ⟨r, hr, h2, rfl⟩
    · rintro ⟨r, hr, h2, rfl⟩
      exact ⟨r, hr, _, ⟨h2, rfl⟩, rfl⟩
  · constructor
    · rintro ⟨r, hr, _, ⟨hw, rfl⟩, rfl⟩
      exact ⟨r, hr, hw, rfl⟩
    · rintro ⟨r, hr, hw, rfl⟩
      exact ⟨r, hr, _, ⟨hw, rfl⟩, rfl⟩

theorem RuleRaise.of_condJump {taken : Bool} {a : Byte} {r : Raise} (h : s.condJump taken a = .error r) :
    RuleRaise s 1 r := by
  rcases except_bind_error.mp h with h | ⟨ra, -, h⟩
  · exact .of_checkReg h
  cases taken
  · rcases except_bind_error.mp h with h | ⟨np, -, h⟩
    · exact .of_fallthrough h
    · simp at h
  · rcases except_bind_error.mp h with h | ⟨v, -, h⟩
    · exact .of_readReg h
    · simp at h

/-- What `exec` answers: the state its rule commits, or one fault taken in the state it found (R87, R88). -/
theorem exec_next_cases {i : Instr} {t : State} (h : exec i s = .next t) :
    Completes i s t ∨ ∃ r, RuleRaise s i.operandCount r ∧ t = s.raise r := by
  cases i
  case hlt => exact .inl (Host.Outcome.next.inj h).symm
  all_goals
    have hc := commit_eq_next.mp h
    clear h
    rcases hc with h | ⟨r, h, rfl⟩
  case ret.inl =>
    left
    simp only [State.readSp, except_bind_ok, readReg_ok, popPointer_ok, Except.ok.injEq] at h
    obtain ⟨_, ⟨hw, rfl⟩, _, ⟨hp, rfl⟩, rfl⟩ := h
    exact ⟨hw, hp, rfl⟩
  case ret.inr =>
    refine .inr ⟨r, ?_, rfl⟩
    rcases except_bind_error.mp h with h | ⟨sp, -, h⟩
    · exact .of_readReg h
    rcases except_bind_error.mp h with h | ⟨nsp, -, h⟩
    · exact .of_popPointer h
    · simp at h
  case push.inl =>
    left
    simp only [except_bind_ok, fallthrough_one_ok, Except.ok.injEq] at h
    obtain ⟨p, hp, _, ⟨h2, rfl⟩, rfl⟩ := h
    exact ⟨p, hp, h2, rfl⟩
  case push.inr =>
    refine .inr ⟨r, ?_, rfl⟩
    rcases except_bind_error.mp h with h | ⟨p, -, h⟩
    · exact .of_readPushOperand h
    rcases except_bind_error.mp h with h | ⟨np, -, h⟩
    · exact .of_fallthrough h
    · simp at h
  case pop.inl =>
    left
    simp only [State.readSp, except_bind_ok, checkReg_ok, readReg_ok, fallthrough_one_ok, Except.ok.injEq] at h
    obtain ⟨r, hr, _, ⟨hw, rfl⟩, nsp, hn, _, ⟨h2, rfl⟩, rfl⟩ := h
    exact ⟨r, nsp, hr, hw, hn, h2, rfl⟩
  case pop.inr =>
    refine .inr ⟨r, ?_, rfl⟩
    rcases except_bind_error.mp h with h | ⟨ra, -, h⟩
    · exact .of_checkReg h
    rcases except_bind_error.mp h with h | ⟨sp, -, h⟩
    · exact .of_readReg h
    rcases except_bind_error.mp h with h | ⟨nsp, -, h⟩
    · exact .of_popPointer h
    rcases except_bind_error.mp h with h | ⟨np, -, h⟩
    · exact .of_fallthrough h
    · simp at h
  case prn.inl =>
    left
    simp only [except_bind_ok, fallthrough_one_ok, Except.ok.injEq] at h
    obtain ⟨v, hv, _, ⟨h2, rfl⟩, rfl⟩ := h
    exact ⟨v, hv, h2, rfl⟩
  case prn.inr =>
    refine .inr ⟨r, ?_, rfl⟩
    rcases except_bind_error.mp h with h | ⟨v, -, h⟩
    · exact .of_readOperand h
    rcases except_bind_error.mp h with h | ⟨np, -, h⟩
    · exact .of_fallthrough h
    · simp at h
  case call.inl =>
    left
    simp only [except_bind_ok, returnAddress_ok, Except.ok.injEq] at h
    obtain ⟨p, hp, _, ⟨h2, rfl⟩, rfl⟩ := h
    exact ⟨p, hp, h2, rfl⟩
  case call.inr =>
    refine .inr ⟨r, ?_, rfl⟩
    rcases except_bind_error.mp h with h | ⟨p, -, h⟩
    · exact .of_readPushOperand h
    rcases except_bind_error.mp h with h | ⟨ret, -, h⟩
    · exact .of_returnAddress h
    · simp at h
  case jmp.inl =>
    left
    simp only [except_bind_ok, Except.ok.injEq] at h
    obtain ⟨v, hv, rfl⟩ := h
    exact ⟨v, hv, rfl⟩
  case jmp.inr =>
    refine .inr ⟨r, ?_, rfl⟩
    rcases except_bind_error.mp h with h | ⟨v, -, h⟩
    · exact .of_readOperand h
    · simp at h
  case jeq.inl => exact .inl (condJump_ok.mp h)
  case jeq.inr => exact .inr ⟨r, .of_condJump h, rfl⟩
  case jne.inl =>
    left
    simp only [condJump_ok, State.takesJne, Bool.not_eq_true', Bool.not_eq_false'] at h
    exact h
  case jne.inr => exact .inr ⟨r, .of_condJump h, rfl⟩
  case ldi.inl =>
    left
    simp only [except_bind_ok, fallthrough_two_ok, Except.ok.injEq] at h
    obtain ⟨r, hr, _, ⟨h3, rfl⟩, rfl⟩ := h
    exact ⟨r, hr, h3, rfl⟩
  case ldi.inr =>
    refine .inr ⟨r, ?_, rfl⟩
    rcases except_bind_error.mp h with h | ⟨ra, -, h⟩
    · exact .of_checkReg h
    rcases except_bind_error.mp h with h | ⟨np, -, h⟩
    · exact .of_fallthrough h
    · simp at h
  case add.inl => exact .inl (binaryAlu_ok.mp h)
  case add.inr => exact .inr ⟨r, .of_binaryAlu h, rfl⟩
  case mul.inl => exact .inl (binaryAlu_ok.mp h)
  case mul.inr => exact .inr ⟨r, .of_binaryAlu h, rfl⟩
  case cmp.inl =>
    left
    simp only [except_bind_ok, fallthrough_two_ok, Except.ok.injEq] at h
    obtain ⟨p, hp, _, ⟨h3, rfl⟩, rfl⟩ := h
    exact ⟨p, hp, h3, rfl⟩
  case cmp.inr =>
    refine .inr ⟨r, ?_, rfl⟩
    rcases except_bind_error.mp h with h | ⟨p, -, h⟩
    · exact .of_readPair h
    rcases except_bind_error.mp h with h | ⟨np, -, h⟩
    · exact .of_fallthrough h
    · simp at h

end Sys2Proof.Machine
end

