-- ==== Sys2Proof/Laws/Memory.lean ====
section
/-! SUPPORT. Memory keeps its canonical form under every operation, and what one write does to every read
(R42, R43, R192). -/

namespace Sys2Proof.Machine

theorem Memory.wf_nil : Memory.wf [] := ⟨.nil, fun _ h => absurd h List.not_mem_nil⟩

theorem Memory.wf_tail {c : Host.Cell} {m : Memory} (h : Memory.wf (c :: m)) : Memory.wf m :=
  ⟨(List.pairwise_cons.mp h.1).2, fun d hd => h.2 d (List.mem_cons_of_mem _ hd)⟩

/-- Every address below the first listed one reads as an unlisted address. -/
theorem Memory.read_of_lt {m : Memory} {addr : Nat} (h : ∀ c ∈ m, addr < c.1) :
    Memory.read m addr = Memory.unlisted := by
  induction m with
  | nil => rfl
  | cons c m ih =>
    have hc := h c (List.mem_cons_self ..)
    simp only [Memory.read, if_neg (Nat.ne_of_lt hc)]
    exact ih fun d hd => h d (List.mem_cons_of_mem _ hd)

theorem Memory.read_cons_lt {k : Nat} {w : Byte} {m : Memory} {addr : Nat} (h : Memory.wf ((k, w) :: m))
    (ha : addr < k) : Memory.read ((k, w) :: m) addr = Memory.unlisted :=
  Memory.read_of_lt fun c hc => by
    rcases List.mem_cons.mp hc with rfl | hm
    · exact ha
    · exact Nat.lt_trans ha ((List.pairwise_cons.mp h.1).1 c hm)

/-- Listing a cell in front of the larger addresses sets that address and no other. -/
theorem Memory.read_cons {m : Memory} {addr : Nat} (v : Byte) (h : ∀ c ∈ m, addr < c.1) (x : Nat) :
    Memory.read (Memory.cons addr v m) x = if x = addr then v else Memory.read m x := by
  unfold Memory.cons
  split
  next hv =>
    split
    next hx => subst hx; rw [hv]; exact Memory.read_of_lt h
    next => rfl
  next => rfl

theorem Memory.cons_wf {m : Memory} {addr : Nat} {v : Byte} (hm : Memory.wf m) (ha : addr < Config.memorySize)
    (h : ∀ c ∈ m, addr < c.1) : Memory.wf (Memory.cons addr v m) := by
  unfold Memory.cons
  split
  next => exact hm
  next hv =>
    refine ⟨List.pairwise_cons.mpr ⟨fun c hc => h c hc, hm.1⟩, fun c hc => ?_⟩
    rcases List.mem_cons.mp hc with rfl | hc
    · exact ⟨ha, hv⟩
    · exact hm.2 c hc

/-- The addresses listed after a write: those listed before, and the one written. -/
theorem Memory.mem_write {m : Memory} {addr : Nat} {v : Byte} {c : Host.Cell} (hc : c ∈ Memory.write m addr v) :
    c = (addr, v) ∨ c ∈ m := by
  induction m with
  | nil =>
    simp only [Memory.write, Memory.cons] at hc
    split at hc <;> simp_all
  | cons d m ih =>
    obtain ⟨k, w⟩ := d
    simp only [Memory.write, Memory.cons] at hc
    split_ifs at hc with h1 h2 h3 h4
    · exact .inr hc
    · simpa using hc
    · exact .inr (List.mem_cons_of_mem _ hc)
    · rcases List.mem_cons.mp hc with h | h
      · exact .inl h
      · exact .inr (List.mem_cons_of_mem _ h)
    · rcases List.mem_cons.mp hc with h | h
      · exact .inr (h ▸ List.mem_cons_self ..)
      · exact (ih h).imp_right (List.mem_cons_of_mem _)

/-- A write keeps the canonical form. -/
theorem Memory.write_wf {m : Memory} {addr : Nat} (v : Byte) (hm : Memory.wf m) (ha : addr < Config.memorySize) :
    Memory.wf (Memory.write m addr v) := by
  induction m with
  | nil => exact Memory.cons_wf hm ha fun _ h => absurd h List.not_mem_nil
  | cons d m ih =>
    obtain ⟨k, w⟩ := d
    have hp := List.pairwise_cons.mp hm.1
    unfold Memory.write
    split_ifs with h1 h2
    · refine Memory.cons_wf hm ha fun c hc => ?_
      rcases List.mem_cons.mp hc with rfl | hc
      · exact h1
      · exact Nat.lt_trans h1 (hp.1 c hc)
    · exact Memory.cons_wf (Memory.wf_tail hm) ha fun c hc => h2 ▸ hp.1 c hc
    · have iht := ih (Memory.wf_tail hm)
      refine ⟨List.pairwise_cons.mpr ⟨fun c hc => ?_, iht.1⟩, fun c hc => ?_⟩
      · rcases Memory.mem_write hc with rfl | h
        · exact Nat.lt_of_le_of_ne (Nat.le_of_not_lt h1) (Ne.symm h2)
        · exact hp.1 c h
      · rcases List.mem_cons.mp hc with rfl | h
        · exact hm.2 _ (List.mem_cons_self ..)
        · exact iht.2 c h

/-- What one write does to every read (R43): the written cell holds the value, every other cell is unchanged. -/
theorem Memory.read_write {m : Memory} (hm : Memory.wf m) (addr : Nat) (v : Byte) (x : Nat) :
    Memory.read (Memory.write m addr v) x = if x = addr then v else Memory.read m x := by
  induction m with
  | nil => exact Memory.read_cons v (fun _ h => absurd h List.not_mem_nil) x
  | cons d m ih =>
    obtain ⟨k, w⟩ := d
    have hp := List.pairwise_cons.mp hm.1
    rw [Memory.write]
    by_cases h1 : addr < k
    · rw [if_pos h1, Memory.read_cons v]
      intro c hc
      rcases List.mem_cons.mp hc with rfl | hc
      · exact h1
      · exact Nat.lt_trans h1 (hp.1 c hc)
    rw [if_neg h1]
    by_cases h2 : addr = k
    · rw [if_pos h2, Memory.read_cons v (fun c hc => h2 ▸ hp.1 c hc)]
      split
      next => rfl
      next hx => rw [Memory.read, if_neg (h2 ▸ hx)]
    · rw [if_neg h2, Memory.read, Memory.read, ih (Memory.wf_tail hm)]
      by_cases hx : x = addr
      · simp [hx, h2]
      · simp [hx]

/-- A write leaves every other address alone, in canonical form or not. -/
theorem Memory.read_write_other (m : Memory) {addr x : Nat} (v : Byte) (hx : x ≠ addr) :
    Memory.read (Memory.write m addr v) x = Memory.read m x := by
  induction m with
  | nil =>
    simp only [Memory.write, Memory.cons]
    split
    · rfl
    · simp [Memory.read, hx]
  | cons d m ih =>
    obtain ⟨k, w⟩ := d
    simp only [Memory.write, Memory.cons]
    split_ifs with h1 h2 h3 h4
    · rfl
    · simp [Memory.read, hx]
    · simp [Memory.read, ← h3, hx]
    · simp [Memory.read, ← h3, hx]
    · simp only [Memory.read, ih]

@[simp] theorem Memory.place_nil (m : Memory) (addr : Nat) : Memory.place m addr [] = m := rfl

/-- Placing an image keeps the canonical form. -/
theorem Memory.place_wf {m : Memory} {addr : Nat} {img : List Byte} (hm : Memory.wf m)
    (h : addr + img.length ≤ Config.memorySize) : Memory.wf (Memory.place m addr img) := by
  induction img generalizing m addr with
  | nil => exact hm
  | cons v vs ih =>
    simp only [List.length_cons] at h
    exact ih (Memory.write_wf v hm (by omega)) (by omega)

/-- Memory operations of State, in the same terms. -/
theorem State.memRead_memWrite {s : State} (hm : Memory.wf s.mem) (addr v x : Byte) :
    (s.memWrite addr v).memRead x = if x = addr then v else s.memRead x := by
  simp only [State.memRead, State.memWrite, Memory.read_write hm, BitVec.toNat_inj]

theorem State.memRead_memWrite_other (s : State) {addr x : Byte} (v : Byte) (hx : x ≠ addr) :
    (s.memWrite addr v).memRead x = s.memRead x :=
  Memory.read_write_other s.mem v (fun h => hx (BitVec.eq_of_toNat_eq h))

theorem State.memWrite_wf {s : State} (hm : Memory.wf s.mem) (addr v : Byte) : Memory.wf (s.memWrite addr v).mem :=
  Memory.write_wf v hm addr.isLt

end Sys2Proof.Machine
end

