-- ==== Sys2Proof/Laws/PerInstr.lean ====
section
/-! SUPPORT. The family `Length`: an instruction is one opcode byte and its operand bytes (R60, R70). -/

namespace Sys2Proof.Laws.Length

/-- The encoding is `1 + n` bytes long, n the operand count of the row. -/
def Statement (i : Instr) : Prop := (encode i).length = 1 + i.operandCount

theorem hlt : Statement .hlt := rfl
theorem ret : Statement .ret := rfl
theorem push (a : Byte) : Statement (.push a) := rfl
theorem pop (a : Byte) : Statement (.pop a) := rfl
theorem prn (a : Byte) : Statement (.prn a) := rfl
theorem call (a : Byte) : Statement (.call a) := rfl
theorem jmp (a : Byte) : Statement (.jmp a) := rfl
theorem jeq (a : Byte) : Statement (.jeq a) := rfl
theorem jne (a : Byte) : Statement (.jne a) := rfl
theorem ldi (a imm : Byte) : Statement (.ldi a imm) := rfl
theorem add (a b : Byte) : Statement (.add a b) := rfl
theorem mul (a b : Byte) : Statement (.mul a b) := rfl
theorem cmp (a b : Byte) : Statement (.cmp a b) := rfl

end Sys2Proof.Laws.Length
end

