-- ==== Sys2Proof/Laws/Step.lean ====
section
/-! SUPPORT. Said once: everything a step can do (R81, R84, R85, R90). -/

namespace Sys2Proof.Machine

variable {s : State}

/-- The step decodes `i` and its operand bytes lie in memory (R84, R85). -/
theorem fetchDecode_ok {i : Instr} :
    s.fetchDecode = .ok i ↔
      decodeLatched s.fetch.op s.fetch.a s.fetch.b = .ok i ∧ s.pc.toNat + i.operandCount ≤ 255 := by
  unfold State.fetchDecode
  split
  next e h => simp [h]
  next j h =>
    simp only [except_bind_ok, operandCheck_ok, Except.ok.injEq, h]
    constructor
    · rintro ⟨-, hn, rfl⟩
      exact ⟨rfl, hn⟩
    · rintro ⟨rfl, hn⟩
      exact ⟨(), hn, rfl⟩

/-- The step raises before any rule runs (R84, R85). -/
theorem fetchDecode_error {r : Raise} :
    s.fetchDecode = .error r ↔
      (∃ e, decodeLatched s.fetch.op s.fetch.a s.fetch.b = .error e ∧ r = ⟨.unknownOpcode, s.fetch.op.toNat⟩) ∨
      (∃ i, decodeLatched s.fetch.op s.fetch.a s.fetch.b = .ok i ∧ 255 < s.pc.toNat + i.operandCount ∧
        r = ⟨.pcOutOfRange, s.pc.toNat + i.operandCount⟩) := by
  unfold State.fetchDecode
  split
  next e h => simp [h, eq_comm]
  next j h =>
    simp only [except_bind_error, operandCheck_error, h]
    simp

theorem step_running {i : Instr} (hr : s.run = .running) (hi : s.fetchDecode = .ok i) : step s = exec i s := by
  simp only [step, hr, hi]

theorem step_raises {r : Raise} (hr : s.run = .running) (hi : s.fetchDecode = .error r) :
    step s = .next (s.raise r) := by
  simp only [step, hr, hi]

theorem step_stopped (hr : s.run ≠ .running) : step s = .next s := by
  unfold step
  split
  next h => exact absurd h hr
  next => rfl
  next => rfl

/-- What a step answers: the same state when the core is stopped; otherwise what `exec` answers for the decoded
instruction, or a fault of decode or of the operand check. -/
theorem step_next_cases {t : State} (h : step s = .next t) :
    (s.run ≠ .running ∧ t = s) ∨
    (s.run = .running ∧ ∃ i, s.fetchDecode = .ok i ∧ exec i s = .next t) ∨
    (s.run = .running ∧ ∃ r, s.fetchDecode = .error r ∧ t = s.raise r) := by
  by_cases hr : s.run = .running
  · cases hd : s.fetchDecode with
    | ok i => exact .inr (.inl ⟨hr, i, rfl, (step_running hr hd).symm.trans h⟩)
    | error r => exact .inr (.inr ⟨hr, r, rfl, (Host.Outcome.next.inj ((step_raises hr hd).symm.trans h)).symm⟩)
  · exact .inl ⟨hr, (Host.Outcome.next.inj ((step_stopped hr).symm.trans h)).symm⟩

end Sys2Proof.Machine
end

