-- ==== Sys2Proof/Tests/Slice0.lean ====
section
/-! SUPPORT. Tests whose expected results come from `95_test_vectors.md` (the vector's name stands in each comment),
the smoke test of WellFormed, and a witness for every statement that has hypotheses. -/

namespace Sys2Proof.Tests

open Sys2Proof.Machine

/-! ### Helpers -/

/-- The reset state with bytes placed from `pc` on (the vectors' start state). -/
def start (pc : Byte) (bytes : List Byte) : State := { State.reset with pc := pc, mem := Memory.place [] pc.toNat bytes }

/-- The state an outcome carries (the reset state if it carries none). -/
def nextState : Host.Outcome State Fault Refusal → State
  | .next t => t
  | .fault _ => State.reset
  | .refused _ => State.reset

/-- The outcome is a next state with this property. -/
def nextHas (o : Host.Outcome State Fault Refusal) (p : State → Bool) : Bool :=
  match o with
  | .next t => p t
  | .fault _ => false
  | .refused _ => false

/-- One step takes this fault and changes nothing but `run`. -/
def faults (s : State) (kind : FaultKind) (code detail : Nat) : Bool :=
  nextHas (step s) fun t => t = { s with run := .faulted ⟨kind, code, s.pc, s.memRead s.pc, detail⟩ }

/-! ### Decoding: one word for every constructor, from the table of R65 -/

theorem test_decode_hlt : decode [0b00000001#8] = .ok (.hlt, []) := by rfl
theorem test_decode_ret : decode [0b00010001#8] = .ok (.ret, []) := by rfl
theorem test_decode_push : decode [0b01000101#8, 0x07#8] = .ok (.push 7, []) := by rfl
theorem test_decode_pop : decode [0b01000110#8, 0x03#8] = .ok (.pop 3, []) := by rfl
theorem test_decode_prn : decode [0b01000111#8, 0x05#8] = .ok (.prn 5, []) := by rfl
theorem test_decode_call : decode [0b01010000#8, 0x01#8] = .ok (.call 1, []) := by rfl
theorem test_decode_jmp : decode [0b01010100#8, 0x09#8] = .ok (.jmp 9, []) := by rfl
theorem test_decode_jeq : decode [0b01010101#8, 0x02#8] = .ok (.jeq 2, []) := by rfl
theorem test_decode_jne : decode [0b01010110#8, 0x03#8] = .ok (.jne 3, []) := by rfl
theorem test_decode_ldi : decode [0b10000010#8, 0x01#8, 0x09#8] = .ok (.ldi 1 9, []) := by rfl
theorem test_decode_add : decode [0b10100000#8, 0x07#8, 0x00#8] = .ok (.add 7 0, []) := by rfl
theorem test_decode_mul : decode [0b10100010#8, 0x00#8, 0x02#8] = .ok (.mul 0 2, []) := by rfl
theorem test_decode_cmp : decode [0b10100111#8, 0x07#8, 0x02#8] = .ok (.cmp 7 2, []) := by rfl

/-- DEC-1 to DEC-5. -/
theorem test_decode_illegal : ∀ op ∈ [0x00#8, 0xFF#8, 0xC2#8, 0x02#8, 0x8F#8],
    decodeLatched op 0x00#8 0x00#8 = .error (.unknownOpcode op) := by
  intro op h
  simp only [List.mem_cons, List.not_mem_nil, or_false] at h
  rcases h with rfl | rfl | rfl | rfl | rfl <;> rfl

theorem test_decode_truncated : decode [0x82#8, 0x00#8] = .error (.truncated 0x82#8) := by rfl

/-- E2: the fields of the scenario's opcode bytes. -/
theorem test_opcode_fields :
    (opNN 0x82#8, opA 0x82#8, opP 0x82#8, opIIII 0x82#8) = (0b10#2, 0#1, 0#1, 0b0010#4) ∧
    (opNN 0xA0#8, opA 0xA0#8, opP 0xA0#8, opIIII 0xA0#8) = (0b10#2, 1#1, 0#1, 0b0000#4) ∧
    (opNN 0x47#8, opA 0x47#8, opP 0x47#8, opIIII 0x47#8) = (0b01#2, 0#1, 0#1, 0b0111#4) ∧
    (opNN 0x01#8, opA 0x01#8, opP 0x01#8, opIIII 0x01#8) = (0b00#2, 0#1, 0#1, 0b0001#4) := by decide

/-- `LDI R1,9` is the bytes 0x82 0x01 0x09 (R72), numbered from the first byte. -/
theorem test_table_word : decodeTableWord 24 0x090182 = some (.ldi 1 9) ∧ decodeTableWord 8 0x090182 = some (.ldi 0 0) := by
  decide

theorem test_fetch_word_runs : step (State.reset.withFetchWord 24 0x090182) =
    exec (.ldi 1 9) (State.reset.withFetchWord 24 0x090182) := by rfl

/-! ### WellFormed refuses each operand that names no register (R63) -/

theorem smoke_push_refused : (Instr.push 8).wellFormed = false := by decide
theorem smoke_pop_refused : (Instr.pop 8).wellFormed = false := by decide
theorem smoke_prn_refused : (Instr.prn 255).wellFormed = false := by decide
theorem smoke_call_refused : (Instr.call 8).wellFormed = false := by decide
theorem smoke_jmp_refused : (Instr.jmp 9).wellFormed = false := by decide
theorem smoke_jeq_refused : (Instr.jeq 16).wellFormed = false := by decide
theorem smoke_jne_refused : (Instr.jne 8).wellFormed = false := by decide
theorem smoke_ldi_refused : (Instr.ldi 8 0).wellFormed = false := by decide
theorem smoke_add_refused : (Instr.add 8 0).wellFormed = false ∧ (Instr.add 0 8).wellFormed = false := by decide
theorem smoke_mul_refused : (Instr.mul 8 0).wellFormed = false ∧ (Instr.mul 0 8).wellFormed = false := by decide
theorem smoke_cmp_refused : (Instr.cmp 8 0).wellFormed = false ∧ (Instr.cmp 0 8).wellFormed = false := by decide
theorem smoke_immediate_accepted : (Instr.ldi 7 255).wellFormed = true := by decide

/-! ### One step of each instruction -/

/-- LDI-2. -/
theorem test_ldi_writes_sp : nextHas (step (start 0 [0x82, 0x07, 0x00]))
    (fun t => t.reg 7 = ⟨0, true⟩ ∧ t.pc = 3) = true := by decide
/-- LDI-7: the operand check comes before BadRegister. -/
theorem test_ldi_operand_check_first : faults (start 254 [0x82, 0x09]) .pcOutOfRange 6 256 = true := by decide
/-- ADD-2. -/
theorem test_add_wraps : nextHas (step (((start 0 [0xA0, 0x00, 0x01]).writeReg 0 200).writeReg 1 100))
    (fun t => t.reg 0 = ⟨44, true⟩ ∧ t.reg 1 = ⟨100, true⟩ ∧ t.pc = 3) = true := by decide
/-- ADD-8: every BadRegister comes before any UnwrittenRegister. -/
theorem test_add_bad_register_first : faults (start 0 [0xA0, 0x00, 0x0A]) .badRegister 2 10 = true := by decide
/-- MUL-3. -/
theorem test_mul_low_byte : nextHas (step (((start 0 [0xA2, 0x00, 0x01]).writeReg 0 200).writeReg 1 3))
    (fun t => t.reg 0 = ⟨88, true⟩ ∧ t.pc = 3) = true := by decide
/-- MUL-7. -/
theorem test_mul_unwritten : faults ((start 0 [0xA2, 0x00, 0x01]).writeReg 0 3) .unwrittenRegister 3 1 = true := by
  decide
/-- CMP-2. -/
theorem test_cmp_clears_flag : nextHas
    (step ((((start 9 [0xA7, 0x00, 0x01]).writeReg 0 3).writeReg 1 5).setFlag true))
    (fun t => t.flag = false ∧ t.pc = 12) = true := by decide
/-- CMP-5. -/
theorem test_cmp_reads_sp : nextHas (step ((start 0 [0xA7, 0x07, 0x02]).writeReg 2 244))
    (fun t => t.flag = true ∧ t.pc = 3) = true := by decide
/-- PUSH-2. -/
theorem test_push_sp_stores_new_sp : nextHas (step (start 0 [0x45, 0x07]))
    (fun t => t.reg 7 = ⟨243, true⟩ ∧ t.memRead 243 = 243 ∧ t.pc = 2) = true := by decide
/-- PUSH-8: the operand was latched before the store overwrote it. -/
theorem test_push_over_own_operand : nextHas (step ((start 242 [0x45, 0x00]).writeReg 0 0x47))
    (fun t => t.reg 7 = ⟨243, true⟩ ∧ t.memRead 243 = 0x47 ∧ t.pc = 244) = true := by decide
/-- POP-5. -/
theorem test_pop_sp : nextHas (step (((start 0 [0x46, 0x07]).writeReg 7 243).memWrite 243 10))
    (fun t => t.reg 7 = ⟨11, true⟩ ∧ t.pc = 2) = true := by decide
/-- POP-4. -/
theorem test_pop_sp_above_top : faults (((start 0 [0x46, 0x07]).writeReg 7 243).memWrite 243 255)
    .stackAboveTop 5 256 = true := by decide
/-- CALL-4: return address 255 is legal. -/
theorem test_call_return_address_255 : nextHas (step ((start 253 [0x50, 0x01]).writeReg 1 12))
    (fun t => t.reg 7 = ⟨243, true⟩ ∧ t.memRead 243 = 255 ∧ t.pc = 12) = true := by decide
/-- CALL-2. -/
theorem test_call_sp_jumps_to_new_sp : nextHas (step (start 6 [0x50, 0x07]))
    (fun t => t.reg 7 = ⟨243, true⟩ ∧ t.memRead 243 = 8 ∧ t.pc = 243) = true := by decide
/-- RET-3. -/
theorem test_ret_at_255 : nextHas (step (((start 255 [0x11]).writeReg 7 243).memWrite 243 5))
    (fun t => t.reg 7 = ⟨244, true⟩ ∧ t.pc = 5) = true := by decide
/-- RET-2. -/
theorem test_ret_above_top : faults ((start 15 [0x11]).writeReg 7 255) .stackAboveTop 5 256 = true := by decide
/-- JMP-1. -/
theorem test_jmp_no_increment : nextHas (step ((start 19 [0x54, 0x03]).writeReg 3 21)) (fun t => t.pc = 21) = true := by
  decide
/-- JMP-5. -/
theorem test_jmp_at_255 : faults ((start 255 [0x54]).writeReg 0 1) .pcOutOfRange 6 256 = true := by decide
/-- JEQ-3: not taken, so R4 is not read. -/
theorem test_jeq_not_taken_unread : nextHas (step (start 12 [0x55, 0x04])) (fun t => t.pc = 14) = true := by decide
/-- JEQ-7. -/
theorem test_jeq_taken_at_254 : nextHas (step (((start 254 [0x55, 0x02]).writeReg 2 16).setFlag true))
    (fun t => t.pc = 16) = true := by decide
/-- JNE-1. -/
theorem test_jne_taken : nextHas (step ((start 20 [0x56, 0x03]).writeReg 3 12)) (fun t => t.pc = 12) = true := by decide
/-- JNE-3. -/
theorem test_jne_fall_through_out_of_range :
    faults (((start 254 [0x56, 0x03]).writeReg 3 12).setFlag true) .pcOutOfRange 6 256 = true := by decide
/-- PRN-2. -/
theorem test_prn_sp : nextHas (step (start 0 [0x47, 0x07])) (fun t => t.out = [244] ∧ t.pc = 2) = true := by decide
/-- PRN-4: nothing is emitted. -/
theorem test_prn_unwritten : faults (start 0 [0x47, 0x05]) .unwrittenRegister 3 5 = true := by decide
/-- HLT-2: the prefetch wraps and does not fault. -/
theorem test_hlt_at_255 : nextHas (step (start 255 [0x01]))
    (fun t => t.run = .halted ∧ t.pc = 255) = true := by decide
/-- DEC-1: an empty image. -/
theorem test_reset_first_step : faults State.reset .unknownOpcode 1 0 = true := by decide
/-- R162, PRN-1 and PRN-3: the host's text. -/
theorem test_host_text : hostText [17, 0] = ['1', '7', '\n', '0', '\n'] := by decide
/-- R192: an image of 257 bytes is refused. -/
theorem test_long_image_refused : loadImage (List.replicate 257 0x01#8) = .refused (.imageTooLong 257) := by
  rw [loadImage, List.length_replicate, if_pos (by decide)]
/-- R199: an unwritten register shows no value at the end of a run. -/
theorem test_observation_hides_unwritten :
    ((start 0 [0x01]).halt.observe.map fun o => o.x) =
      some [none, none, none, none, none, none, none, some 244] := by decide

/-! ### Witnesses: states and operands that meet the hypotheses of each statement -/

/-- R0 = 200 and R1 = 100 written, at this address. -/
def two (pc : Byte) : State := ((start pc []).writeReg 0 200).writeReg 1 100

/-- R0 = 9 written, SP as given, at this address. -/
def stack (pc sp : Byte) : State := ((start pc []).writeReg 0 9).writeReg 7 sp

theorem witness_EncodeInvertsDecode : decode [0x45, 0x03, 0xFF] = .ok (.push 3, [0xFF]) := by rfl

theorem witness_OpcodeDecodesExactlyIfListed : illegalOpcode 0x00 ∧ ¬ illegalOpcode 0x01 := by
  unfold illegalOpcode
  decide

theorem witness_UnusedOperandBytesIgnored :
    (decodeLatched 0x45 0x03 0x09 = .ok (.push 3) ∧ (Instr.push 3).operandCount = 1) ∧
    (decodeLatched 0x01 0x03 0x09 = .ok .hlt ∧ Instr.hlt.operandCount = 0) := ⟨⟨rfl, rfl⟩, ⟨rfl, rfl⟩⟩

/-- An unknown byte; an operand byte at address 256; an operand byte at address 255. -/
theorem witness_StepFetchesDecodesDispatches :
    ((start 0 []).run = .running ∧ decodeLatched ((start 0 []).memRead 0) 0 0 = .error (.unknownOpcode 0)) ∧
    (decodeLatched ((start 254 [0x82]).memRead 254) ((start 254 [0x82]).memRead 255) ((start 254 [0x82]).memRead 0)
      = .ok (.ldi 0 0) ∧ 255 < (start 254 [0x82]).pc.toNat + (Instr.ldi 0 0).operandCount) ∧
    (decodeLatched ((start 254 [0x54]).memRead 254) ((start 254 [0x54]).memRead 255) ((start 254 [0x54]).memRead 0)
      = .ok (.jmp 0) ∧ (start 254 [0x54]).pc.toNat + (Instr.jmp 0).operandCount ≤ 255) :=
  ⟨⟨rfl, rfl⟩, ⟨rfl, by decide⟩, ⟨rfl, by decide⟩⟩

/-- Three bytes at 253..255. -/
theorem witness_StepRunsInstructionInMemory :
    let s := start 253 [0x82, 0x01, 0x09]
    s.run = .running ∧ s.pc.toNat + (encode (.ldi 1 9)).length ≤ 256 ∧
      [0, 1, 2].map (fun k => s.memRead (BitVec.ofNat 8 (s.pc.toNat + k))) = encode (.ldi 1 9) := by decide

theorem witness_UnknownOpcodeEndsRun :
    (start 5 [0xFF]).run = .running ∧ illegalOpcode ((start 5 [0xFF]).memRead (start 5 [0xFF]).pc) := by
  unfold illegalOpcode
  decide

theorem witness_StoppedCoreStays :
    (start 0 []).halt.run ≠ .running ∧ ((start 0 []).raise ⟨.badRegister, 8⟩).run ≠ .running := by decide

theorem witness_LdiLoadsImmediate :
    8 ≤ (8 : Byte).toNat ∧ (7 : RegIndex).val = (7 : Byte).toNat ∧ (start 252 []).pc.toNat + 3 ≤ 255 ∧
      256 ≤ (start 253 []).pc.toNat + 3 := by decide

/-- The clauses of ADD, MUL and CMP, which have one shape: the boundary register bytes 7 and 8, each written mark,
and the boundary addresses 252 and 253. -/
theorem witness_AddMulCmp :
    8 ≤ (8 : Byte).toNat ∧ ((7 : Byte).toNat < 8 ∧ 8 ≤ (8 : Byte).toNat) ∧
    (((two 252).reg 0).written = true ∧ ((two 252).reg 1).written = true ∧ (two 252).pc.toNat + 3 ≤ 255) ∧
    ((start 0 []).reg 0).written = false ∧
    (((start 0 []).reg 7).written = true ∧ ((start 0 []).reg 0).written = false) ∧
    (((two 253).reg 0).written = true ∧ ((two 253).reg 1).written = true ∧ 256 ≤ (two 253).pc.toNat + 3) := by decide

/-- The clauses of PUSH and CALL, which have one shape: SP 1 and 0, addresses 253 and 254. -/
theorem witness_PushCall :
    ((stack 253 1).reg 7).written = true ∧ 8 ≤ (8 : Byte).toNat ∧
    (((stack 253 1).reg 0).written = true ∧ 1 ≤ (stack 253 1).sp.toNat ∧ (stack 253 1).pc.toNat + 2 ≤ 255) ∧
    ((stack 253 1).reg 1).written = false ∧
    (((stack 253 0).reg 0).written = true ∧ (stack 253 0).sp.toNat = 0) ∧
    (((stack 254 1).reg 0).written = true ∧ 1 ≤ (stack 254 1).sp.toNat ∧ 256 ≤ (stack 254 1).pc.toNat + 2) := by decide

/-- The clauses of POP: SP 254 and 255 with operand R0, and a popped 255 with operand R7. -/
theorem witness_PopLoadsFromStackPointer :
    ((stack 253 254).reg 7).written = true ∧ 8 ≤ (8 : Byte).toNat ∧
    ((stack 253 254).sp.toNat + 1 ≤ 255 ∧ (stack 253 254).pc.toNat + 2 ≤ 255) ∧
    256 ≤ (stack 253 255).sp.toNat + 1 ∧
    256 ≤ (((stack 0 243).memWrite 243 255).memRead ((stack 0 243).memWrite 243 255).sp).toNat + 1 ∧
    ((stack 254 254).sp.toNat + 1 ≤ 255 ∧ 256 ≤ (stack 254 254).pc.toNat + 2) := by decide

theorem witness_RetPopsProgramCounter :
    ((stack 0 254).reg 7).written = true ∧ (stack 0 254).sp.toNat + 1 ≤ 255 ∧ (stack 0 255).sp.toNat = 255 := by decide

theorem witness_JmpSetsProgramCounter :
    8 ≤ (8 : Byte).toNat ∧ (7 : RegIndex).val = (7 : Byte).toNat ∧ ((start 0 []).reg 7).written = true ∧
      ((start 0 []).reg 0).written = false := by decide

/-- The clauses of JEQ and JNE, which have one shape with the flag exchanged. -/
theorem witness_JeqJne :
    8 ≤ (8 : Byte).toNat ∧ (((start 0 []).setFlag true).flag = true ∧ (start 0 []).flag = false) ∧
    (((start 0 []).reg 7).written = true ∧ ((start 0 []).reg 0).written = false) ∧
    (start 253 []).pc.toNat + 2 ≤ 255 ∧ 256 ≤ (start 254 []).pc.toNat + 2 := by decide

theorem witness_PrnAppendsRegisterValue :
    8 ≤ (8 : Byte).toNat ∧ (((start 253 []).reg 7).written = true ∧ (start 253 []).pc.toNat + 2 ≤ 255) ∧
    ((start 0 []).reg 0).written = false ∧
    (((start 254 []).reg 7).written = true ∧ 256 ≤ (start 254 []).pc.toNat + 2) := by decide

theorem witness_FaultingStepChangesOnlyRun :
    let s := start 0 [0x47, 0x05]
    s.run = .running ∧ step s = .next (nextState (step s)) ∧
      (nextState (step s)).run = .faulted ⟨.unwrittenRegister, 3, 0, 0x47, 5⟩ ∧
      (s.reg Config.spIndex).written = true := ⟨rfl, rfl, by decide, by decide⟩

theorem witness_InstructionsFaultExactlyByTable :
    ((start 0 []).reg Config.spIndex).written = true ∧
    firstRaise (ruleChecks (.add 0 10) (start 0 [])) = some ⟨.badRegister, 10⟩ ∧
    firstRaise (ruleChecks (.add 7 7) (start 252 [])) = none := by decide

/-- PUSH-7 (the stack fault before the fall-through fault) and PUSH-2. -/
theorem witness_StepReportsFirstFault :
    let s := (start 254 [0x45, 0x00]).writeReg 0 9
    (s.writeReg 7 0).run = .running ∧ ((s.writeReg 7 0).reg Config.spIndex).written = true ∧
    (s.writeReg 7 0).stepRaise = some ⟨.stackBelowZero, 0⟩ ∧ (start 0 [0x45, 0x07]).stepRaise = none := by decide

theorem witness_AluFrameKeepsRest :
    exec (.ldi 7 0) (two 0) = .next (nextState (exec (.ldi 7 0) (two 0))) ∧
    exec (.add 0 1) (two 0) = .next (nextState (exec (.add 0 1) (two 0))) ∧
    exec (.mul 0 1) (two 0) = .next (nextState (exec (.mul 0 1) (two 0))) := ⟨rfl, rfl, rfl⟩

theorem witness_CompareFrameKeepsRest : exec (.cmp 0 1) (two 0) = .next (nextState (exec (.cmp 0 1) (two 0))) := rfl

/-- The lowest cell a push can store to, and no cell. -/
theorem witness_StoreFrameKeepsRest :
    exec (.push 0) (stack 0 1) = .next (nextState (exec (.push 0) (stack 0 1))) ∧
    exec (.call 0) (stack 0 1) = .next (nextState (exec (.call 0) (stack 0 1))) ∧
    pushSlot (stack 0 1).sp = .ok 0 ∧ pushSlot (stack 0 0).sp = .error ⟨.stackBelowZero, 0⟩ := ⟨rfl, rfl, rfl, rfl⟩

theorem witness_PopFrameKeepsRest :
    exec (.pop 0) (stack 0 254) = .next (nextState (exec (.pop 0) (stack 0 254))) ∧
    exec .ret (stack 0 254) = .next (nextState (exec .ret (stack 0 254))) := ⟨rfl, rfl⟩

theorem witness_JumpFrameKeepsRest :
    exec (.jmp 0) (two 0) = .next (nextState (exec (.jmp 0) (two 0))) ∧
    exec (.jeq 0) (two 0) = .next (nextState (exec (.jeq 0) (two 0))) ∧
    exec (.jne 0) (two 0) = .next (nextState (exec (.jne 0) (two 0))) := ⟨rfl, rfl, rfl⟩

theorem witness_OutputHaltFrameKeepsRest :
    exec (.prn 0) (two 0) = .next (nextState (exec (.prn 0) (two 0))) ∧
    exec .hlt (two 0) = .next (nextState (exec .hlt (two 0))) := ⟨rfl, rfl⟩

theorem witness_OnlyCmpWritesFlag :
    let s := start 0 [0x45, 0x07]
    step s = .next (nextState (step s)) ∧ s.memRead s.pc ≠ 0xA7 := ⟨rfl, by decide⟩

theorem witness_OnlyPushAndCallWriteMemory :
    let s := start 0 [0x45, 0x07]
    step s = .next (nextState (step s)) ∧ (nextState (step s)).memRead 243 ≠ s.memRead 243 := ⟨rfl, by decide⟩

theorem witness_OnlyPrnDrivesOutput :
    let s := start 0 [0x47, 0x07]
    step s = .next (nextState (step s)) ∧ (nextState (step s)).out ≠ s.out := ⟨rfl, by decide⟩

theorem witness_WrittenMarksStay :
    let s := start 0 [0x45, 0x07]
    step s = .next (nextState (step s)) ∧ (s.reg 7).written = true := ⟨rfl, by decide⟩

/-- A change to Halted and a change to Faulted. -/
theorem witness_RunStateChangesOnlyFromRunning :
    (step (start 0 [0x01]) = .next (nextState (step (start 0 [0x01]))) ∧
      (nextState (step (start 0 [0x01]))).run ≠ (start 0 [0x01]).run) ∧
    (step (start 0 []) = .next (nextState (step (start 0 []))) ∧
      (nextState (step (start 0 []))).run ≠ (start 0 []).run) := ⟨⟨rfl, by decide⟩, ⟨rfl, by decide⟩⟩

/-- A step without a fault for each of the thirteen instructions. -/
theorem witness_ProgramCounterAdvancesByLength :
    ∀ i ∈ [Instr.hlt, .ret, .push 0, .pop 0, .prn 0, .call 0, .jmp 0, .jeq 0, .jne 0, .ldi 0 1, .add 0 1, .mul 0 1,
        .cmp 0 1],
      let s := { two 0 with mem := Memory.place [] 0 (encode i) }
      s.run = .running ∧ s.fetchDecode = .ok i ∧ step s = .next (nextState (step s)) ∧
        (nextState (step s)).faultFree := by
  intro i hi
  simp only [List.mem_cons, List.not_mem_nil, or_false] at hi
  rcases hi with rfl | rfl | rfl | rfl | rfl | rfl | rfl | rfl | rfl | rfl | rfl | rfl | rfl <;>
    exact ⟨rfl, rfl, rfl, fun rec h => by cases h⟩

theorem witness_InvariantAfterImageLoad : loadImage [0x01] = .next (nextState (loadImage [0x01])) := rfl

theorem witness_InvariantKeptByStep :
    State.reset.Inv ∧ step State.reset = .next (nextState (step State.reset)) :=
  ⟨⟨by decide, rfl, fun rec h => by cases h⟩, rfl⟩

/-- Two states that differ in the value stored under R0's unwritten mark. -/
theorem witness_UnwrittenValuesNeverObserved :
    let t := { State.reset with regs := State.reset.regs.set 0 ⟨5, false⟩ }
    State.reset.Alike t ∧ State.reset ≠ t ∧ step State.reset = .next (nextState (step State.reset)) :=
  ⟨⟨by decide, rfl, rfl, rfl, rfl, rfl⟩, by decide, rfl⟩

/-- PUSH R0, then PUSH R1, POP R2, then POP R3. -/
theorem witness_PopReturnsMatchingPush :
    BalancedStackOps [.push 1, .pop 2] ∧ (two 0).Inv ∧ (two 0).run = .running ∧
    (execSeq (.push 0 :: [.push 1, .pop 2] ++ [.pop 3]) (two 0)).isSome = true :=
  ⟨.around 1 2 [] (by decide) .none, ⟨by decide, rfl, fun rec h => by cases h⟩, rfl, by decide⟩

/-- CALL R1 at 6 reaches a RET at 12. -/
theorem witness_ReturnFollowsCall :
    let s := ((start 6 [0x50, 0x01, 0, 0, 0, 0, 0x11]).writeReg 1 12)
    s.Inv ∧ s.run = .running ∧ s.memRead s.pc = 0x50 ∧ step s = .next (nextState (step s)) ∧
      (nextState (step s)).run = .running ∧ (nextState (step s)).memRead (nextState (step s)).pc = 0x11 :=
  ⟨⟨by decide, rfl, fun rec h => by cases h⟩, rfl, by decide, rfl, by decide, by decide⟩

/-- Equal values and unequal values, with the jump at the last address that can fall through. -/
theorem witness_ConditionalJumpsFollowCompare :
    (exec (.cmp 0 0) (two 250) = .next (nextState (exec (.cmp 0 0) (two 250))) ∧
      (nextState (exec (.cmp 0 0) (two 250))).faultFree ∧ ((two 250).reg 1).written = true ∧
      (nextState (exec (.cmp 0 0) (two 250))).pc.toNat + 2 ≤ 255) ∧
    (exec (.cmp 0 1) (two 250) = .next (nextState (exec (.cmp 0 1) (two 250))) ∧
      (nextState (exec (.cmp 0 1) (two 250))).faultFree ∧ ((two 250).reg 0).value ≠ ((two 250).reg 1).value) :=
  ⟨⟨rfl, (fun rec h => by cases h), by decide, by decide⟩, ⟨rfl, (fun rec h => by cases h), by decide⟩⟩

theorem witness_PrintAfterLoadEmitsValue : (7 : Byte).toNat < 8 ∧ (start 250 []).pc.toNat + 5 ≤ 255 := by decide

/-- PUSH R0 at 6 with SP = 9 stores to 8, where the next instruction starts (Program F). -/
theorem witness_NextFetchSeesPushedByte :
    let s := ((start 6 [0x45, 0x00, 0xFF]).writeReg 0 1).writeReg 7 9
    s.Inv ∧ s.run = .running ∧ s.memRead s.pc = 0x45 ∧ (0 : RegIndex).val = (s.memRead (s.pc + 1)).toNat ∧
      step s = .next (nextState (step s)) ∧ (nextState (step s)).run = .running ∧
      (nextState (step s)).pc = (nextState (step s)).sp :=
  ⟨⟨by decide, rfl, fun rec h => by cases h⟩, rfl, by decide, by decide, rfl, by decide, by decide⟩

theorem witness_MemoryWriteSetsOneCell : State.reset.Inv ∧ (254 : Byte) ≠ 255 :=
  ⟨⟨by decide, rfl, fun rec h => by cases h⟩, by decide⟩

/-- A byte written and then overwritten by zero leaves the memory it started from. -/
theorem witness_EqualReadsMeanEqualMemory :
    let m := Memory.place [] 0 [0x82, 0x00, 0x08]
    let n := Memory.write (Memory.write m 255 7) 255 0
    Memory.wf m ∧ Memory.wf n ∧ m = n := by decide

theorem witness_ImageLoadStartsRun :
    (List.replicate 256 0x01#8).length ≤ 256 ∧ 256 < (List.replicate 257 0x01#8).length := by
  rw [List.length_replicate, List.length_replicate]
  decide

/-- HLT ends within one step, and a jump to its own address has not ended (Program G). -/
theorem witness_RunBudgetOnlyDelaysTheEnd :
    runFor 1 (start 0 [0x01]) = .ended (start 0 [0x01]).halt ∧
    runFor 1 ((start 3 [0x54, 0x00]).writeReg 0 3) = .notEnded ((start 3 [0x54, 0x00]).writeReg 0 3) := by decide

end Sys2Proof.Tests
end

section
/-! PROOFS. What one instruction can change at most, said once for all thirteen (`exec_confined`). The frame
statements and the rules about the whole machine are read off it. -/

namespace Sys2Proof

/-- The registers that an instruction's rule writes (R100 to R102, R121, R122, R141, R142). -/
def Instr.writesReg : Instr → RegIndex → Prop
  | .ldi a _, j | .add a _, j | .mul a _, j => j.val = a.toNat
  | .pop a, j => j = Config.spIndex ∨ j.val = a.toNat
  | .push _, j | .call _, j | .ret, j => j = Config.spIndex
  | .prn _, _ | .jmp _, _ | .jeq _, _ | .jne _, _ | .cmp _ _, _ | .hlt, _ => False

/-- The instructions that store a byte to the stack (R45). -/
def Instr.pushes : Instr → Prop
  | .push _ | .call _ => True
  | _ => False

/-- The instructions that change nothing but registers, `pc` and, on a fault, `run`. -/
def Instr.changesOnlyRegs : Instr → Prop
  | .ldi _ _ | .add _ _ | .mul _ _ | .pop _ | .ret | .jmp _ | .jeq _ | .jne _ => True
  | .cmp _ _ | .prn _ | .push _ | .call _ | .hlt => False

theorem Instr.changesOnlyRegs.not_pushes {i : Instr} (h : i.changesOnlyRegs) : ¬ i.pushes := by
  cases i <;> simp_all [Instr.changesOnlyRegs, Instr.pushes]

theorem Instr.pushes.writesReg_iff {i : Instr} {j : RegIndex} (h : i.pushes) :
    i.writesReg j ↔ j = Config.spIndex := by
  cases i <;> simp_all [Instr.writesReg, Instr.pushes]

/-- The operand fields of a decoded instruction are the latched bytes, as many as its row has (R62, R69). -/
theorem decodeLatched_operandBytes {op a b : Byte} {i : Instr} (h : decodeLatched op a b = .ok i) :
    i.operandBytes = [a, b].take i.operandCount := by
  unfold decodeLatched at h
  split at h <;> cases h <;> rfl

end Sys2Proof

namespace Sys2Proof.Machine

variable {s t : State} {i : Instr}

/-- What the instruction `i`, executed in `s` with next state `t`, changes at most: each field is as it was, or `i`
is one of the instructions that write it. Only `pc` is left open. A proof gives the fields that do change. -/
structure Confined (i : Instr) (s t : State) : Prop where
  reg : ∀ j, t.reg j = s.reg j ∨ (i.writesReg j ∧ (t.reg j).written = true) := by exact fun _ => .inl rfl
  flag : t.flag = s.flag ∨ ∃ a b, i = .cmp a b := by exact .inl rfl
  mem : t.mem = s.mem ∨
    (i.pushes ∧ ∃ slot v, pushSlot s.sp = .ok slot ∧ t.mem = Memory.write s.mem slot.toNat v) := by exact .inl rfl
  out : t.out = s.out ∨ ∃ a v, i = .prn a ∧ s.readOperand a = .ok v ∧ t.out = s.out ++ [v] := by exact .inl rfl
  run : t.run = s.run ∨ (i = .hlt ∧ t.run = .halted) ∨
    ∃ r, RuleRaise s i.operandCount r ∧ t = s.raise r := by exact .inl rfl

/-- One register write of an instruction, as the field `reg` of `Confined` wants it. -/
theorem writeReg_reg_cases (i : Instr) {r : RegIndex} (hr : i.writesReg r) (s : State) (v : Byte) (j : RegIndex) :
    (s.writeReg r v).reg j = s.reg j ∨ (i.writesReg j ∧ ((s.writeReg r v).reg j).written = true) := by
  by_cases h : j = r
  · subst h
    simp [hr]
  · simp [h]

/-- Where `pushSlot` answers, PUSH and CALL store to the address it gives for SP (R121, R141). -/
theorem pushSlot_of_readPushOperand {a : Byte} {p : PushOperand} (h : s.readPushOperand a = .ok p) :
    pushSlot s.sp = .ok p.slot := by
  obtain ⟨_, _, _, _, hsp, hslot, _⟩ := readPushOperand_ok.mp h
  exact pushSlot_ok.mpr ⟨hsp, hslot⟩

theorem Completes.confined (h : Completes i s t) : Confined i s t := by
  cases i
  case hlt => exact h ▸ { run := .inr (.inl ⟨rfl, rfl⟩) }
  case ret =>
    obtain ⟨-, -, rfl⟩ := h
    exact { reg := writeReg_reg_cases .ret (r := Config.spIndex) rfl s _ }
  case push a =>
    obtain ⟨p, hp, -, rfl⟩ := h
    exact {
      reg := writeReg_reg_cases (.push a) (r := Config.spIndex) rfl s _
      mem := .inr ⟨trivial, _, _, pushSlot_of_readPushOperand hp, rfl⟩ }
  case call a =>
    obtain ⟨p, hp, -, rfl⟩ := h
    exact {
      reg := writeReg_reg_cases (.call a) (r := Config.spIndex) rfl s _
      mem := .inr ⟨trivial, _, _, pushSlot_of_readPushOperand hp, rfl⟩ }
  case pop a =>
    obtain ⟨r, nsp, hr, -, -, -, rfl⟩ := h
    refine { reg := fun j => ?_ }
    rcases writeReg_reg_cases (.pop a) (.inl rfl) (s.writeReg r _) nsp j with h | h
    · rcases writeReg_reg_cases (.pop a) (.inr hr) s _ j with h' | ⟨hj, hw⟩
      · exact .inl (h.trans h')
      · exact .inr ⟨hj, (congrArg Reg.written h).trans hw⟩
    · exact .inr h
  case prn a =>
    obtain ⟨v, hv, -, rfl⟩ := h
    exact { out := .inr ⟨a, v, rfl, hv, rfl⟩ }
  case jmp a =>
    obtain ⟨v, -, rfl⟩ := h
    exact {}
  case jeq a | jne a => obtain ⟨r, -, ⟨-, -, rfl⟩ | ⟨-, -, rfl⟩⟩ := h <;> exact {}
  case ldi a imm =>
    obtain ⟨r, hr, -, rfl⟩ := h
    exact { reg := writeReg_reg_cases (.ldi a imm) (checkReg_ok.mp hr) s imm }
  case add a b =>
    obtain ⟨p, hp, -, rfl⟩ := h
    exact { reg := writeReg_reg_cases (.add a b) (readPair_ok.mp hp).1 s _ }
  case mul a b =>
    obtain ⟨p, hp, -, rfl⟩ := h
    exact { reg := writeReg_reg_cases (.mul a b) (readPair_ok.mp hp).1 s _ }
  case cmp a b =>
    obtain ⟨p, -, -, rfl⟩ := h
    exact { flag := .inr ⟨a, b, rfl⟩ }

/-- Every next state that `exec` answers is confined: the rule's own, and the state with a fault taken (R88). -/
theorem exec_confined (h : exec i s = .next t) : Confined i s t := by
  rcases exec_next_cases h with hc | ⟨r, hr, rfl⟩
  · exact hc.confined
  · exact { run := .inr (.inr ⟨r, hr, rfl⟩) }

/-- The rule ran to its end if no fault ended the state. -/
theorem completes_of_faultFree (h : exec i s = .next t) (hf : t.faultFree) : Completes i s t :=
  (exec_next_cases h).resolve_right fun ⟨_, _, ht⟩ => hf _ (congrArg State.run ht)

theorem memRead_of_mem_eq (h : t.mem = s.mem) (adr : Byte) : t.memRead adr = s.memRead adr :=
  congrArg (Memory.read · adr.toNat) h

namespace Confined

variable (h : Confined i s t)
include h

theorem reg_eq {j : RegIndex} (hj : ¬ i.writesReg j) : t.reg j = s.reg j :=
  (h.reg j).resolve_right fun hw => hj hw.1

/-- No instruction marks a register unwritten (R24). -/
theorem written {j : RegIndex} (hj : (s.reg j).written = true) : (t.reg j).written = true := by
  rcases h.reg j with he | ⟨-, hw⟩
  · rwa [he]
  · exact hw

theorem flag_eq (hi : ∀ a b, i ≠ .cmp a b) : t.flag = s.flag :=
  h.flag.resolve_right fun ⟨a, b, he⟩ => hi a b he

theorem memRead_eq (hi : ¬ i.pushes) (adr : Byte) : t.memRead adr = s.memRead adr :=
  memRead_of_mem_eq (h.mem.resolve_right fun hp => hi hp.1) adr

theorem out_eq (hi : ∀ a, i ≠ .prn a) : t.out = s.out :=
  h.out.resolve_right fun ⟨a, _, he, _⟩ => hi a he

theorem run_eq_or_faulted (hi : i ≠ .hlt) : t.run = s.run ∨ ∃ rec, t.run = .faulted rec := by
  obtain hr | ⟨he, -⟩ | ⟨r, -, rfl⟩ := h.run
  · exact .inl hr
  · exact absurd he hi
  · exact .inr ⟨_, rfl⟩

/-- No byte but the one below SP changes (R121, R141). -/
theorem memRead_eq_of_ne_slot {slot adr : Byte} (hs : pushSlot s.sp = .ok slot) (ha : adr ≠ slot) :
    t.memRead adr = s.memRead adr := by
  obtain hm | ⟨-, slot', v, hs', hm⟩ := h.mem
  · exact memRead_of_mem_eq hm adr
  · obtain rfl : slot = slot' := Except.ok.inj (hs.symm.trans hs')
    exact (memRead_of_mem_eq (s := s.memWrite slot v) hm adr).trans (s.memRead_memWrite_other v ha)

/-- Where `pushSlot` answers no address, no byte changes (R120). -/
theorem memRead_eq_of_no_slot {r : Raise} (hs : pushSlot s.sp = .error r) (adr : Byte) :
    t.memRead adr = s.memRead adr :=
  memRead_of_mem_eq (h.mem.resolve_right fun ⟨_, _, _, hs', _⟩ => nomatch hs.symm.trans hs') adr

/-- The part that the frames of the register and jump instructions have in common. -/
theorem keepsFlagOutMemory (hi : i.changesOnlyRegs) :
    t.flag = s.flag ∧ t.out = s.out ∧ (∀ adr : Byte, t.memRead adr = s.memRead adr) ∧
      (t.run = s.run ∨ ∃ rec, t.run = .faulted rec) := by
  refine ⟨h.flag_eq ?_, h.out_eq ?_, h.memRead_eq hi.not_pushes, h.run_eq_or_faulted ?_⟩
  · rintro a b rfl; exact hi
  · rintro a rfl; exact hi
  · rintro rfl; exact hi

/-- The frame that PUSH and CALL have in common. -/
theorem pushFrame (hi : i.pushes) :
    (∀ j : RegIndex, j ≠ Config.spIndex → t.reg j = s.reg j) ∧ t.flag = s.flag ∧ t.out = s.out ∧
      (∀ slot, pushSlot s.sp = .ok slot → ∀ adr : Byte, adr ≠ slot → t.memRead adr = s.memRead adr) ∧
      (∀ r, pushSlot s.sp = .error r → ∀ adr : Byte, t.memRead adr = s.memRead adr) ∧
      (t.run = s.run ∨ ∃ rec, t.run = .faulted rec) := by
  refine ⟨fun j hj => h.reg_eq (mt hi.writesReg_iff.mp hj), h.flag_eq ?_, h.out_eq ?_,
    fun _ hs _ => h.memRead_eq_of_ne_slot hs, fun _ => h.memRead_eq_of_no_slot, h.run_eq_or_faulted ?_⟩
  · rintro a b rfl; exact hi
  · rintro a rfl; exact hi
  · rintro rfl; exact hi

end Confined

/-! ### The frames of the instructions -/

/-- Settles O28: LDI, ADD and MUL write only their destination. -/
theorem aluFrameKeepsRest : Obligations.AluFrameKeepsRest := by
  intro a b s t h
  rcases h with h | h | h <;>
    exact ⟨fun j hj => (exec_confined h).reg_eq hj, (exec_confined h).keepsFlagOutMemory trivial⟩

/-- Settles O29: CMP writes no register. -/
theorem compareFrameKeepsRest : Obligations.CompareFrameKeepsRest := by
  intro a b s t h
  have c := exec_confined h
  exact ⟨fun j => c.reg_eq id, c.out_eq nofun, c.memRead_eq id, c.run_eq_or_faulted nofun⟩

/-- Settles O30: PUSH and CALL write SP and the cell below it. -/
theorem storeFrameKeepsRest : Obligations.StoreFrameKeepsRest := by
  intro a s t h
  rcases h with h | h <;> exact (exec_confined h).pushFrame trivial

/-- Settles O31: RET writes SP, and POP also its destination. -/
theorem popFrameKeepsRest : Obligations.PopFrameKeepsRest := by
  intro a s t
  refine ⟨fun h => ?_, fun h => ?_⟩ <;> have c := exec_confined h
  · exact ⟨fun j hsp ha => c.reg_eq (not_or_intro hsp ha), c.keepsFlagOutMemory trivial⟩
  · exact ⟨fun j hsp => c.reg_eq hsp, c.keepsFlagOutMemory trivial⟩

/-- Settles O32: a jump writes no register. -/
theorem jumpFrameKeepsRest : Obligations.JumpFrameKeepsRest := by
  intro a s t h
  rcases h with h | h | h <;>
    exact ⟨fun j => (exec_confined h).reg_eq id, (exec_confined h).keepsFlagOutMemory trivial⟩

/-- Settles O33: PRN appends at most one value, and HLT is `State.halt`. -/
theorem outputHaltFrameKeepsRest : Obligations.OutputHaltFrameKeepsRest := by
  intro a s t
  refine ⟨fun h => ?_, fun h => ?_⟩
  · have c := exec_confined h
    exact ⟨fun j => c.reg_eq id, c.flag_eq nofun, c.out.imp_right fun ⟨_, v, _, _, hv⟩ => ⟨v, hv⟩,
      c.memRead_eq id, c.run_eq_or_faulted nofun⟩
  · obtain rfl : s.halt = t := Host.Outcome.next.inj h
    exact ⟨fun _ => rfl, rfl, rfl, rfl, fun _ => rfl⟩

/-! ### Rules about the whole machine -/

/-- The byte at `pc` is the opcode of the instruction the step decodes (R82, R84). -/
theorem fetchDecode_opcode (h : s.fetchDecode = .ok i) : s.memRead s.pc = i.opcode :=
  decodeLatched_opcode (fetchDecode_ok.mp h).1

theorem fetchAddress_one (s : State) : s.fetchAddress 1 = s.pc + 1 := by
  apply BitVec.eq_of_toNat_eq
  simp [State.fetchAddress]

/-- PRN's operand is the byte after its opcode (R62). -/
theorem fetchDecode_prn {a : Byte} (h : s.fetchDecode = .ok (.prn a)) : a = s.memRead (s.pc + 1) := by
  have ho : [a] = [s.fetch.a] := decodeLatched_operandBytes (fetchDecode_ok.mp h).1
  rw [← fetchAddress_one]
  exact List.singleton_inj.mp ho

/-- Settles O34: a step that executes CMP has fetched CMP's opcode. -/
theorem onlyCmpWritesFlag : Obligations.OnlyCmpWritesFlag := by
  intro s t h hop
  rcases step_next_cases h with ⟨-, rfl⟩ | ⟨-, i, hi, he⟩ | ⟨-, r, -, rfl⟩
  · rfl
  · refine (exec_confined he).flag_eq ?_
    rintro a b rfl
    exact hop (fetchDecode_opcode hi)
  · rfl

/-- Settles O36: the step that appends to `out` executes PRN, whose operand is the byte after the opcode. -/
theorem onlyPrnDrivesOutput : Obligations.OnlyPrnDrivesOutput := by
  intro s t h
  rcases step_next_cases h with ⟨-, rfl⟩ | ⟨-, i, hi, he⟩ | ⟨-, r, -, rfl⟩
  · exact .inl rfl
  · refine (exec_confined he).out.imp_right ?_
    rintro ⟨a, v, rfl, hv, hout⟩
    obtain ⟨ra, hra, -, rfl⟩ := readOperand_ok.mp hv
    exact ⟨fetchDecode_opcode hi, ra, fetchDecode_prn hi ▸ hra, hout⟩
  · exact .inl rfl

/-- Settles O37: an instruction keeps a register or writes it, and a written register is marked so. -/
theorem writtenMarksStay : Obligations.WrittenMarksStay := by
  intro s t j h hw
  rcases step_next_cases h with ⟨-, rfl⟩ | ⟨-, i, -, he⟩ | ⟨-, r, -, rfl⟩
  · exact hw
  · exact (exec_confined he).written hw
  · exact hw

/-- Settles O38: a stopped core stays, and a running one halts by HLT or faults. -/
theorem runStateChangesOnlyFromRunning : Obligations.RunStateChangesOnlyFromRunning := by
  intro s t h hne
  rcases step_next_cases h with ⟨-, rfl⟩ | ⟨hr, i, hi, he⟩ | ⟨hr, r, -, rfl⟩
  · exact absurd rfl hne
  · refine ⟨hr, ?_⟩
    obtain hs | ⟨rfl, ht⟩ | ⟨r, -, rfl⟩ := (exec_confined he).run
    · exact absurd hs hne
    · exact .inl ⟨ht, fetchDecode_opcode hi⟩
    · exact .inr ⟨_, rfl⟩
  · exact ⟨hr, .inr ⟨_, rfl⟩⟩

/-- A sum that stays in 0..255 is the number its byte stands for: `pc` does not wrap (R26, R87). -/
theorem toNat_ofNat_of_le {n : Nat} (h : n ≤ 255) : (BitVec.ofNat 8 n).toNat = n := by
  simp only [BitVec.toNat_ofNat]
  omega

/-- Settles O39: read off the state that each rule commits. -/
theorem programCounterAdvancesByLength : Obligations.ProgramCounterAdvancesByLength := by
  intro s t i hr hi h hf
  have hc := completes_of_faultFree ((step_running hr hi).symm.trans h) hf
  cases i
  case hlt =>
    obtain rfl : t = s.halt := hc
    rfl
  case ret =>
    obtain ⟨-, -, rfl⟩ := hc
    rfl
  case push a | prn a | ldi a b | add a b | mul a b | cmp a b =>
    obtain ⟨_, -, hpc, rfl⟩ := hc
    exact toNat_ofNat_of_le hpc
  case pop a =>
    obtain ⟨_, _, -, -, -, hpc, rfl⟩ := hc
    exact toNat_ofNat_of_le hpc
  case call a =>
    obtain ⟨p, hp, -, rfl⟩ := hc
    obtain ⟨ra, ha, -, -, -, -, hv⟩ := readPushOperand_ok.mp hp
    exact ⟨ra, ha, by simpa [State.sp] using hv⟩
  case jmp a =>
    obtain ⟨v, hv, rfl⟩ := hc
    obtain ⟨ra, ha, -, hv⟩ := readOperand_ok.mp hv
    exact ⟨ra, ha, hv⟩
  case jeq a | jne a =>
    obtain ⟨ra, ha, ⟨hfl, -, rfl⟩ | ⟨hfl, hpc, rfl⟩⟩ := hc
    · simpa [hfl] using ⟨ra, checkReg_ok.mp ha, rfl⟩
    · simpa [hfl] using toNat_ofNat_of_le hpc

end Sys2Proof.Machine
end

section
/-! PROOFS. The invariant: the reset state meets it, an image load gives it, and every step keeps it. -/

namespace Sys2Proof.Machine

variable {s t : State} {i : Instr}

/-- Settles O41: no cell is listed, and SP is written. -/
theorem invariantAtReset : Obligations.InvariantAtReset := ⟨Memory.wf_nil, rfl, nofun⟩

/-- Settles O42: the load places an image that fits, and nothing else differs from reset. -/
theorem invariantAfterImageLoad : Obligations.InvariantAfterImageLoad := by
  intro img s h
  unfold loadImage at h
  split at h
  next => cases h
  next hlen =>
    obtain rfl := Host.Outcome.next.inj h
    exact ⟨Memory.place_wf Memory.wf_nil (by simpa [maxImage] using hlen), rfl, nofun⟩

/-- Every fault a rule raises carries a detail its kind allows: SP is written, so no read of R7 raises, and the operand
bytes lie in memory, so the next address is at most 256 (R85, R171). -/
theorem RuleRaise.detailFits {n : Nat} {r : Raise} (h : RuleRaise s n r)
    (hsp : (s.reg Config.spIndex).written = true) (hn : s.pc.toNat + n ≤ 255) (opcode : Byte) :
    r.kind.detailFits opcode r.detail := by
  cases h
  case badRegister b hb => exact ⟨hb, Nat.le_of_lt_succ b.isLt⟩
  case unwrittenRegister j hj =>
    have h7 : j.val ≠ 7 := fun h7 => by
      rw [show j = Config.spIndex from Fin.ext h7, hsp] at hj
      cases hj
    show j.val ≤ 6
    omega
  case stackBelowZero => exact rfl
  case stackAboveTop => exact rfl
  case pcOutOfRange hp => exact .inl (show s.pc.toNat + 1 + n = 256 by omega)

/-- The operand count of every row is at most two (R60). -/
theorem operandCount_le_two (i : Instr) : i.operandCount ≤ 2 := by
  cases i <;> simp [Instr.operandCount]

/-- The same for the two faults that stand before the rule (R84, R85). -/
theorem fetchDecode_error_detailFits {r : Raise} (h : s.fetchDecode = .error r) :
    r.kind.detailFits (s.memRead s.pc) r.detail := by
  rcases fetchDecode_error.mp h with ⟨_, -, rfl⟩ | ⟨i, -, hn, rfl⟩
  · exact rfl
  · have hi := operandCount_le_two i
    have hpc := s.pc.isLt
    show s.pc.toNat + i.operandCount = 256 ∨ s.pc.toNat + i.operandCount = 257
    omega

/-- Taking a fault keeps the invariant: the record is made of the state (R31, R88). -/
theorem State.Inv.raise {r : Raise} (h : s.Inv) (hd : r.kind.detailFits (s.memRead s.pc) r.detail) :
    (s.raise r).Inv := by
  refine ⟨h.memWf, h.spWritten, fun rec hrec => ?_⟩
  obtain rfl : s.faultRecord r = rec := RunState.faulted.inj hrec
  exact ⟨rfl, rfl, rfl, hd⟩

/-- An instruction leaves memory in canonical form. -/
theorem Confined.memWf (h : Confined i s t) (hm : Memory.wf s.mem) : Memory.wf t.mem := by
  obtain he | ⟨-, slot, v, -, he⟩ := h.mem <;> rw [he]
  · exact hm
  · exact Memory.write_wf v hm slot.isLt

/-- Settles O43: what the instruction changes at most keeps memory and SP's mark, and the only record is that of the
fault it took. -/
theorem invariantKeptByStep : Obligations.InvariantKeptByStep := by
  intro s t hs h
  rcases step_next_cases h with ⟨-, rfl⟩ | ⟨hr, i, hi, he⟩ | ⟨-, r, hd, rfl⟩
  · exact hs
  · have c := exec_confined he
    have inv_of_no_record (hrec : ∀ rec, t.run ≠ .faulted rec) : t.Inv :=
      ⟨c.memWf hs.memWf, c.written hs.spWritten, fun rec h => absurd h (hrec rec)⟩
    obtain hrun | ⟨-, hrun⟩ | ⟨r, hraise, rfl⟩ := c.run
    · exact inv_of_no_record fun rec => by simp [hrun, hr]
    · exact inv_of_no_record fun rec => by simp [hrun]
    · exact hs.raise (hraise.detailFits hs.spWritten (fetchDecode_ok.mp hi).2 _)
  · exact hs.raise (fetchDecode_error_detailFits hd)

end Sys2Proof.Machine
end

section
/-! PROOFS. The value under an unwritten mark: `State.Alike` is kept by every primitive, hence by every rule, hence by
every step. -/

namespace Sys2Proof.Machine

variable {s t s' : State}

/-- A read sees of a register what the host sees of it (R24). -/
theorem readReg_eq_seen (s : State) (i : RegIndex) :
    s.readReg i = (s.reg i).seen.elim (.error ⟨.unwrittenRegister, i.val⟩) .ok := by
  unfold State.readReg Reg.seen
  split <;> rfl

namespace State.Alike

/-! What a rule reads is the same in states that are alike. -/

section
variable (h : s.Alike t)
include h

theorem readReg_eq (i : RegIndex) : s.readReg i = t.readReg i := by
  rw [readReg_eq_seen, readReg_eq_seen, h.regs]

theorem memRead_eq (adr : Byte) : s.memRead adr = t.memRead adr := memRead_of_mem_eq h.mem adr

theorem readSp_eq : s.readSp = t.readSp := h.readReg_eq _

theorem fallthrough_eq (n : Nat) : s.fallthrough n = t.fallthrough n := by
  simp only [State.fallthrough, h.pc]

theorem returnAddress_eq : s.returnAddress = t.returnAddress := by
  simp only [State.returnAddress, h.pc]

theorem readOperand_eq (a : Byte) : s.readOperand a = t.readOperand a := by
  simp only [State.readOperand, h.readReg_eq]

theorem readPair_eq (a b : Byte) : s.readPair a b = t.readPair a b := by
  simp only [State.readPair, h.readReg_eq]

theorem readPushOperand_eq (a : Byte) : s.readPushOperand a = t.readPushOperand a := by
  simp only [State.readPushOperand, h.readReg_eq, h.readSp_eq]

theorem fetch_eq : s.fetch = t.fetch := by
  simp only [State.fetch, State.fetchAddress, h.pc, h.memRead_eq]

theorem fetchDecode_eq : s.fetchDecode = t.fetchDecode := by
  simp only [State.fetchDecode, State.operandCheck, h.fetch_eq, h.pc]

/-! Every update of the state keeps states alike. -/

theorem writeReg (i : RegIndex) (v : Byte) : (s.writeReg i v).Alike (t.writeReg i v) where
  regs j := by
    by_cases hj : j = i <;> simp [hj, h.regs]
  __ := h

theorem writeSp (v : Byte) : (s.writeSp v).Alike (t.writeSp v) := h.writeReg _ v

theorem memWrite (adr v : Byte) : (s.memWrite adr v).Alike (t.memWrite adr v) :=
  { h with mem := congrArg (Memory.write · adr.toNat v) h.mem }

theorem pushByte (slot v : Byte) : (s.pushByte slot v).Alike (t.pushByte slot v) := (h.writeSp slot).memWrite slot v

theorem setPc (v : Byte) : (s.setPc v).Alike (t.setPc v) := { h with pc := rfl }

theorem setFlag (f : Bool) : (s.setFlag f).Alike (t.setFlag f) := { h with flag := rfl }

theorem emit (v : Byte) : (s.emit v).Alike (t.emit v) := { h with out := congrArg (· ++ [v]) h.out }

theorem halt : s.halt.Alike t.halt := { h with run := rfl }

theorem raise (r : Raise) : (s.raise r).Alike (t.raise r) :=
  { h with run := by simp only [raise_run, faultRecord, h.pc, h.memRead_eq] }

theorem ended_eq : s.ended = t.ended := by
  unfold State.ended
  rw [h.run]

/-- The host observes the same of states that are alike (R199). -/
theorem observe_eq : s.observe = t.observe := by
  have hx : s.regs.toList.map Reg.seen = t.regs.toList.map Reg.seen :=
    List.ext_getElem (by simp) fun k hs _ => by
      simpa [State.reg] using h.regs ⟨k, by simpa using hs⟩
  simp only [State.observe, h.ended_eq, hx, h.pc, h.flag, h.mem, h.run, h.out]

end
end State.Alike

/-- Two rules end alike: they commit states that are alike, or raise the same fault. -/
def EndsAlike : Except Raise State → Except Raise State → Prop
  | .ok u, .ok v => u.Alike v
  | .error q, .error r => q = r
  | _, _ => False

/-- Rules that begin with the same check or read end alike if their rests do. -/
theorem EndsAlike.bind {α : Type} (x : Except Raise α) {f g : α → Except Raise State}
    (h : ∀ a, EndsAlike (f a) (g a)) : EndsAlike (x >>= f) (x >>= g) := by
  cases x with
  | error r => exact rfl
  | ok a => exact h a

theorem EndsAlike.commit {x y : Except Raise State} (hxy : EndsAlike x y) (h : s.Alike t)
    (hx : commit s x = .next s') : ∃ t', commit t y = .next t' ∧ s'.Alike t' := by
  cases x <;> cases y
  case error.error q r =>
    obtain rfl : q = r := hxy
    obtain rfl := Host.Outcome.next.inj hx
    exact ⟨_, rfl, h.raise q⟩
  case ok.ok u v =>
    obtain rfl := Host.Outcome.next.inj hx
    exact ⟨v, rfl, hxy⟩
  all_goals exact hxy.elim

theorem State.Alike.binaryAlu (h : s.Alike t) (f : Byte → Byte → Byte) (a b : Byte) :
    EndsAlike (s.binaryAlu f a b) (t.binaryAlu f a b) := by
  unfold State.binaryAlu
  rw [h.readPair_eq, h.fallthrough_eq]
  exact .bind _ fun p => .bind _ fun np => (h.writeReg _ _).setPc np

theorem State.Alike.condJump (h : s.Alike t) {b c : Bool} (hbc : b = c) (a : Byte) :
    EndsAlike (s.condJump b a) (t.condJump c a) := by
  subst hbc
  unfold State.condJump
  refine .bind _ fun r => ?_
  cases b with
  | true => exact h.readReg_eq r ▸ .bind _ fun v => h.setPc v
  | false => exact h.fallthrough_eq 1 ▸ .bind _ fun np => h.setPc np

/-- Every instruction takes states that are alike to states that are alike. -/
theorem State.Alike.exec (h : s.Alike t) {i : Instr} (hs : exec i s = .next s') :
    ∃ t', exec i t = .next t' ∧ s'.Alike t' := by
  cases i
  case hlt => exact EndsAlike.commit (x := .ok s.halt) (y := .ok t.halt) h.halt h hs
  case ret =>
    refine EndsAlike.commit ?_ h hs
    simp only [h.readSp_eq, h.memRead_eq]
    exact .bind _ fun sp => .bind _ fun nsp => (h.writeSp nsp).setPc _
  case push a =>
    refine EndsAlike.commit ?_ h hs
    rw [h.readPushOperand_eq, h.fallthrough_eq]
    exact .bind _ fun p => .bind _ fun np => (h.pushByte _ _).setPc np
  case pop a =>
    refine EndsAlike.commit ?_ h hs
    simp only [h.readSp_eq, h.memRead_eq, h.fallthrough_eq]
    exact .bind _ fun r => .bind _ fun sp => .bind _ fun nsp => .bind _ fun np =>
      ((h.writeReg r _).writeSp nsp).setPc np
  case prn a =>
    refine EndsAlike.commit ?_ h hs
    rw [h.readOperand_eq, h.fallthrough_eq]
    exact .bind _ fun v => .bind _ fun np => (h.emit v).setPc np
  case call a =>
    refine EndsAlike.commit ?_ h hs
    rw [h.readPushOperand_eq, h.returnAddress_eq]
    exact .bind _ fun p => .bind _ fun ret => (h.pushByte _ ret).setPc _
  case jmp a =>
    refine EndsAlike.commit ?_ h hs
    rw [h.readOperand_eq]
    exact .bind _ fun v => h.setPc v
  case jeq a => exact (h.condJump h.flag a).commit h hs
  case jne a => exact (h.condJump (congrArg (!·) h.flag) a).commit h hs
  case ldi a imm =>
    refine EndsAlike.commit ?_ h hs
    rw [h.fallthrough_eq]
    exact .bind _ fun r => .bind _ fun np => (h.writeReg r _).setPc np
  case add a b | mul a b => exact (h.binaryAlu _ a b).commit h hs
  case cmp a b =>
    refine EndsAlike.commit ?_ h hs
    rw [h.readPair_eq, h.fallthrough_eq]
    exact .bind _ fun p => .bind _ fun np => (h.setFlag _).setPc np

/-- Settles O44: the step fetches and decodes the same, and then the instruction keeps the states alike. -/
theorem unwrittenValuesNeverObserved : Obligations.UnwrittenValuesNeverObserved := by
  intro s t s' h hs
  suffices ∃ t', step t = .next t' ∧ s'.Alike t' from
    this.imp fun t' ⟨ht, ha⟩ => ⟨ht, ha, ha.observe_eq⟩
  rcases step_next_cases hs with ⟨hr, rfl⟩ | ⟨hr, i, hi, he⟩ | ⟨hr, r, hd, rfl⟩
  · exact ⟨t, step_stopped (h.run ▸ hr), h⟩
  · rw [step_running (h.run ▸ hr) (h.fetchDecode_eq ▸ hi)]
    exact h.exec he
  · exact ⟨_, step_raises (h.run ▸ hr) (h.fetchDecode_eq ▸ hd), h.raise r⟩

end Sys2Proof.Machine
end

section
/-! PROOFS. The canonical form of memory, and what reset leaves. -/

namespace Sys2Proof.Machine

/-- In canonical form the listed cells are read off: an address is listed with a value if it reads as that value and
not as an unlisted one. -/
theorem Memory.mem_iff_read {m : Memory} (hm : Memory.wf m) {k : Nat} {v : Byte} :
    (k, v) ∈ m ↔ Memory.read m k = v ∧ v ≠ Memory.unlisted := by
  induction m with
  | nil => simp [Memory.read, eq_comm]
  | cons c m ih =>
    obtain ⟨k', w⟩ := c
    have hlt := (List.pairwise_cons.mp hm.1).1
    by_cases hk : k = k'
    · subst hk
      have hw : w ≠ Memory.unlisted := (hm.2 _ List.mem_cons_self).2
      have hnot : (k, v) ∉ m := fun h => Nat.lt_irrefl k (hlt (k, v) h)
      simp only [List.mem_cons, Prod.mk.injEq, true_and, hnot, or_false, Memory.read, if_true]
      exact ⟨fun h => ⟨h.symm, h ▸ hw⟩, fun h => h.1.symm⟩
    · simp [Memory.read, hk, ih (Memory.wf_tail hm)]

/-- No cell is listed beyond memory. -/
theorem Memory.read_of_memorySize_le {m : Memory} (hm : Memory.wf m) {k : Nat} (hk : Config.memorySize ≤ k) :
    Memory.read m k = Memory.unlisted := by
  by_contra h
  exact Nat.not_lt.mpr hk (hm.2 _ ((Memory.mem_iff_read hm).mpr ⟨rfl, h⟩)).1

/-- Settles O51: the memories list the same cells, both in rising order. -/
theorem equalReadsMeanEqualMemory : Obligations.EqualReadsMeanEqualMemory := by
  intro m n hm hn h
  have hread (k : Nat) : Memory.read m k = Memory.read n k := by
    by_cases hk : k < Config.memorySize
    · exact h ⟨k, hk⟩
    · have hk := Nat.le_of_not_lt hk
      rw [Memory.read_of_memorySize_le hm hk, Memory.read_of_memorySize_le hn hk]
  have : Std.Antisymm fun c d : Host.Cell => c.1 < d.1 := ⟨fun _ _ hcd hdc => absurd hdc (Nat.lt_asymm hcd)⟩
  have : Std.Irrefl fun c d : Host.Cell => c.1 < d.1 := ⟨fun c => Nat.lt_irrefl c.1⟩
  refine hm.1.eq_of_mem_iff hn.1 fun c => ?_
  rw [Memory.mem_iff_read hm, Memory.mem_iff_read hn, hread]

/-- Settles O53: the fields of `State.reset` are written out. -/
theorem resetLeavesSpecValues : Obligations.ResetLeavesSpecValues :=
  ⟨rfl, by decide, rfl, rfl, fun _ => rfl, rfl, rfl⟩

end Sys2Proof.Machine
end

section
/-! PROOFS. Memory (`20_memory.md`): what a write does, which step writes, and what the next fetch reads of it. -/

namespace Sys2Proof

/-- The storing instructions have the opcodes of PUSH and CALL (R65). -/
theorem Instr.pushes.opcode {i : Instr} (h : i.pushes) : i.opcode = 0x45#8 ∨ i.opcode = 0x50#8 := by
  cases i
  case push a => exact .inl (opcode_push a)
  case call a => exact .inr (opcode_call a)
  all_goals exact h.elim

end Sys2Proof

namespace Sys2Proof.Machine

variable {s t : State} {i : Instr}

/-- Settles O50: the laws of `memWrite` under the invariant's canonical form. -/
theorem memoryWriteSetsOneCell : Obligations.MemoryWriteSetsOneCell := by
  intro s adr v hs
  refine ⟨?_, fun x hx => s.memRead_memWrite_other v hx, State.memWrite_wf hs.memWf adr v, _, rfl⟩
  rw [State.memRead_memWrite hs.memWf, if_pos rfl]

/-- The cell a push stores to is the one below SP (R120). -/
theorem toNat_succ_of_pushSlot {sp slot : Byte} (h : pushSlot sp = .ok slot) : slot.toNat + 1 = sp.toNat := by
  obtain ⟨hsp, rfl⟩ := pushSlot_ok.mp h
  have := sp.isLt
  rw [toNat_ofNat_of_le (by omega)]
  omega

/-- An instruction that changes a byte stores to the stack, and the byte is the one `pushSlot` gives. -/
theorem Confined.pushSlot_of_memRead_ne (h : Confined i s t) {adr : Byte} (ha : t.memRead adr ≠ s.memRead adr) :
    i.pushes ∧ pushSlot s.sp = .ok adr := by
  obtain hm | ⟨hi, slot, _, hslot, -⟩ := h.mem
  · exact absurd (memRead_of_mem_eq hm adr) ha
  · obtain rfl : adr = slot := by_contra fun hne => ha (h.memRead_eq_of_ne_slot hslot hne)
    exact ⟨hi, hslot⟩

/-- Settles O35: only an executed instruction changes memory, and it is one that stores to the stack. -/
theorem onlyPushAndCallWriteMemory : Obligations.OnlyPushAndCallWriteMemory := by
  intro s t adr h ha
  rcases step_next_cases h with ⟨-, rfl⟩ | ⟨-, i, hi, he⟩ | ⟨-, r, -, rfl⟩
  · exact absurd rfl ha
  · obtain ⟨hp, hslot⟩ := (exec_confined he).pushSlot_of_memRead_ne ha
    exact ⟨fetchDecode_opcode hi ▸ hp.opcode, toNat_succ_of_pushSlot hslot⟩
  · exact absurd rfl ha

/-- PUSH's opcode at `pc` decodes to PUSH of the byte after it (R62, R65). -/
theorem fetchDecode_eq_push (h : s.fetchDecode = .ok i) (hop : s.memRead s.pc = 0x45#8) :
    i = .push (s.memRead (s.pc + 1)) := by
  have hd := (fetchDecode_ok.mp h).1
  rw [show s.fetch.op = 0x45#8 from hop] at hd
  rw [← fetchAddress_one]
  exact (Except.ok.inj hd).symm

/-- A step that leaves the core running has executed the instruction it decoded, and that rule ran to its end. -/
theorem completes_of_step_running (h : step s = .next t) (hs : s.run = .running) (ht : t.run = .running) :
    ∃ i, s.fetchDecode = .ok i ∧ Completes i s t := by
  rcases step_next_cases h with ⟨hr, -⟩ | ⟨-, i, hi, he⟩ | ⟨-, r, -, rfl⟩
  · exact absurd hs hr
  · exact ⟨i, hi, completes_of_faultFree he fun rec => by simp [ht]⟩
  · cases ht

/-- The cell a push stored to reads as the byte it stored (R42, R43). -/
theorem pushByte_memRead_slot (hm : Memory.wf s.mem) (slot v : Byte) : (s.pushByte slot v).memRead slot = v := by
  rw [State.pushByte, State.memRead_memWrite (s := s.writeSp slot) hm, if_pos rfl]

/-- Settles O49: the step completes PUSH, and the next opcode is fetched at the cell it stored to. -/
theorem nextFetchSeesPushedByte : Obligations.NextFetchSeesPushedByte := by
  intro s t ra hs hr hop hra h ht hpc
  obtain ⟨i, hi, hc⟩ := completes_of_step_running h hr ht
  obtain rfl := fetchDecode_eq_push hi hop
  obtain ⟨p, hp, -, htp⟩ := hc
  obtain ⟨rb, hrb, -, -, -, -, hv⟩ := readPushOperand_ok.mp hp
  obtain rfl : ra = rb := Fin.ext (hra.trans hrb.symm)
  have hsp : t.sp = p.slot := by simp [htp, State.sp]
  calc t.fetch.op
    _ = t.memRead t.sp := congrArg t.memRead hpc
    _ = p.value := by rw [hsp, htp, State.setPc_memRead, pushByte_memRead_slot hs.memWf]
    _ = if ra = 7 then t.sp else (s.reg ra).value := by rw [hsp, hv]

end Sys2Proof.Machine
end

section
/-! PROOFS. The encoding (`30_encoding.md`): `decode` and `encode` are inverse to each other (`decode_ok_iff`), read
off from what the latched bytes decode to (`decodeLatched_ok_iff`). -/

namespace Sys2Proof

theorem Instr.length_operandBytes (i : Instr) : i.operandBytes.length = i.operandCount := by
  cases i <;> rfl

/-- Latched bytes decode to an instruction exactly if the opcode is its own and its operand bytes are the first of the
two prefetched ones (R62, R66, R69). -/
theorem decodeLatched_ok_iff {op a b : Byte} {i : Instr} :
    decodeLatched op a b = .ok i ↔ op = i.opcode ∧ i.operandBytes = [a, b].take i.operandCount := by
  refine ⟨fun h => ⟨decodeLatched_opcode h, decodeLatched_operandBytes h⟩, ?_⟩
  rintro ⟨rfl, h⟩
  cases i
  all_goals
    cases h
    rfl

/-! ### Byte sequences (R60) -/

/-- Where a sequence holds the operand bytes of a row, the two latched ones start with them (R60, R83). -/
theorem take_latched {n : Nat} {tl : List Byte} (hn : n ≤ 2) (hl : n ≤ tl.length) (x : Byte) :
    [tl.getD 0 x, tl.getD 1 x].take n = tl.take n := by
  match n, tl with
  | 0, _ => rfl
  | 1, _ :: _ => rfl
  | 2, _ :: _ :: _ => rfl

/-- What `decode` answers on a sequence with an opcode byte: the latched instruction, if its operand bytes are there,
and the bytes after them. -/
theorem decode_cons_ok {op : Byte} {tl rest : List Byte} {i : Instr} :
    decode (op :: tl) = .ok (i, rest) ↔
      decodeLatched op (tl.getD 0 0x00#8) (tl.getD 1 0x00#8) = .ok i ∧ i.operandCount ≤ tl.length ∧
        tl.drop i.operandCount = rest := by
  simp only [decode]
  cases decodeLatched op (tl.getD 0 0x00#8) (tl.getD 1 0x00#8) with
  | error e => simp
  | ok j =>
    by_cases hj : tl.length < j.operandCount
    · simp only [if_pos hj, reduceCtorEq, false_iff, Except.ok.injEq]
      rintro ⟨rfl, hle, -⟩
      omega
    · simp only [if_neg hj, Except.ok.injEq, Prod.mk.injEq]
      refine and_congr_right ?_
      rintro rfl
      simp [Nat.le_of_not_lt hj]

/-- A byte sequence decodes to an instruction exactly if it begins with that instruction's bytes (R60, R62, R65). -/
theorem decode_ok_iff {bytes rest : List Byte} {i : Instr} :
    decode bytes = .ok (i, rest) ↔ bytes = encode i ++ rest := by
  cases bytes with
  | nil => simp [decode, encode]
  | cons op tl =>
    rw [decode_cons_ok, decodeLatched_ok_iff, encode, List.cons_append, List.cons.injEq, and_assoc]
    refine and_congr_right fun _ => ⟨?_, ?_⟩
    · rintro ⟨hops, hl, rfl⟩
      rw [hops, take_latched (Machine.operandCount_le_two i) hl, List.take_append_drop]
    · rintro rfl
      have hl : i.operandCount ≤ (i.operandBytes ++ rest).length := by
        simp [i.length_operandBytes]
      refine ⟨?_, hl, List.drop_left' i.length_operandBytes⟩
      rw [take_latched (Machine.operandCount_le_two i) hl, List.take_left' i.length_operandBytes]

/-- Settles O1: the encoding followed by `rest` begins with the encoding. -/
theorem decodeInvertsEncode : Obligations.DecodeInvertsEncode :=
  fun _ _ => decode_ok_iff.mpr rfl

/-- Settles O2: the other direction of the same equivalence. -/
theorem encodeInvertsDecode : Obligations.EncodeInvertsDecode :=
  fun _ _ _ h => decode_ok_iff.mp h

/-! ### The opcode map (R65 to R69) -/

/-- The map of R65 lists every instruction's opcode byte. -/
theorem not_illegalOpcode_opcode (i : Instr) : ¬ Machine.illegalOpcode i.opcode := by
  cases i <;> simp [Machine.illegalOpcode, opcode_hlt, opcode_ret, opcode_push, opcode_pop, opcode_prn, opcode_call,
    opcode_jmp, opcode_jeq, opcode_jne, opcode_ldi, opcode_add, opcode_mul, opcode_cmp]

/-- A listed opcode byte decodes, whatever the prefetched bytes are (R63, R65). -/
theorem decodeLatched_of_listed {op : Byte} (h : ¬ Machine.illegalOpcode op) (a b : Byte) :
    ∃ i, decodeLatched op a b = .ok i := by
  unfold Machine.illegalOpcode at h
  rw [not_not] at h
  fin_cases h <;> exact ⟨_, rfl⟩

/-- Settles O3: a decoded byte is the opcode of an instruction, so it is listed; a listed byte decodes. -/
theorem opcodeDecodesExactlyIfListed : Obligations.OpcodeDecodesExactlyIfListed := by
  intro op a b
  constructor
  · intro hop
    cases h : decodeLatched op a b with
    | ok i => exact absurd (decodeLatched_opcode h ▸ hop) (not_illegalOpcode_opcode i)
    | error e => rw [decodeLatched_error h]
  · intro hop
    obtain ⟨i, h⟩ := decodeLatched_of_listed hop a b
    exact ⟨i, h, (decodeLatched_opcode h).symm⟩

/-- Only the prefetched bytes that an instruction uses decide what is decoded (R69). -/
theorem decodeLatched_of_take_eq {op a b a' b' : Byte} {i : Instr} (h : decodeLatched op a b = .ok i)
    (hab : [a, b].take i.operandCount = [a', b'].take i.operandCount) : decodeLatched op a' b' = .ok i := by
  rw [decodeLatched_ok_iff] at h ⊢
  exact h.imp_right hab.subst

/-- Settles O6: one operand uses the first prefetched byte, no operand uses none. -/
theorem unusedOperandBytesIgnored : Obligations.UnusedOperandBytesIgnored :=
  fun _ _ _ _ _ _ h =>
    ⟨fun hn => decodeLatched_of_take_eq h (by simp [hn]), fun hn => decodeLatched_of_take_eq h (by simp [hn])⟩

/-- Settles O4: each word is the encoding of its instruction. -/
theorem tableWordsDecode : Obligations.TableWordsDecode :=
  ⟨decodeInvertsEncode (.ldi 1 9) [], decodeInvertsEncode (.add 0 1) [], decodeInvertsEncode (.mul 0 2) [],
    decodeInvertsEncode (.cmp 7 2) [], decodeInvertsEncode (.push 3) [], decodeInvertsEncode (.jeq 2) [],
    decodeInvertsEncode (.prn 0) [], decodeInvertsEncode .ret [], decodeInvertsEncode .hlt []⟩

/-! The fields of an opcode byte are those it was built from (R61). -/

theorem opNN_opcodeByte (nn : BitVec 2) (a p : BitVec 1) (iiii : BitVec 4) : opNN (opcodeByte nn a p iiii) = nn := by
  decide +revert

theorem opA_opcodeByte (nn : BitVec 2) (a p : BitVec 1) (iiii : BitVec 4) : opA (opcodeByte nn a p iiii) = a := by
  decide +revert

theorem opP_opcodeByte (nn : BitVec 2) (a p : BitVec 1) (iiii : BitVec 4) : opP (opcodeByte nn a p iiii) = p := by
  decide +revert

/-- Every row's `op[7:6]` is its operand count (R67). -/
theorem opNN_opcode (i : Instr) : (opNN i.opcode).toNat = i.operandCount := by
  cases i <;> simp [Instr.opcode, opNN_opcodeByte, Instr.operandCount]

/-- Settles O5: the opcodes of R65 in hex are distinct, and the fields are read off the columns. -/
theorem opcodeMapMeetsConstraints : Obligations.OpcodeMapMeetsConstraints := by
  intro a b
  refine ⟨⟨opcode_ldi a b, opcode_add a b, opcode_prn a, opcode_hlt⟩, ?distinct, ?operandCount, ?alu, ?setsPc⟩
  case distinct =>
    exact List.pairwise_map.mp (show [0x01#8, 0x11#8, 0x45#8, 0x46#8, 0x47#8, 0x50#8, 0x54#8, 0x55#8, 0x56#8, 0x82#8,
      0xA0#8, 0xA2#8, 0xA7#8].Pairwise (· ≠ ·) by decide)
  case operandCount =>
    simp [opNN_opcode, Instr.operandCount]
  case alu =>
    simp [Instr.opcode, opA_opcodeByte]
  case setsPc =>
    simp [Instr.opcode, opP_opcodeByte]

end Sys2Proof

namespace Sys2Proof.Machine

variable {s : State} {i : Instr}

/-! ### The bytes in memory (R82, R83) -/

/-- The fetch address as a byte, which wraps by itself (R83). -/
theorem fetchAddress_eq (s : State) (k : Nat) : s.fetchAddress k = BitVec.ofNat 8 (s.pc.toNat + k) := by
  apply BitVec.eq_of_toNat_eq
  simp [State.fetchAddress]

/-- The bytes of `i` stand at the next addresses from `pc` on, so the step latches and decodes `i`. -/
theorem fetchDecode_of_encode (hpc : s.pc.toNat + (encode i).length ≤ 256)
    (hm : ∀ (k : Nat) (h : k < (encode i).length), s.memRead (BitVec.ofNat 8 (s.pc.toNat + k)) = (encode i)[k]) :
    s.fetchDecode = .ok i := by
  have hlen : (encode i).length = i.operandCount + 1 := congrArg (· + 1) i.length_operandBytes
  have hn := operandCount_le_two i
  have hop : s.fetch.op = i.opcode := by
    have hfirst := hm 0 (by omega)
    simp only [Nat.add_zero, BitVec.ofNat_toNat, BitVec.setWidth_eq] at hfirst
    exact hfirst
  have hops : i.operandBytes = [s.fetch.a, s.fetch.b].take i.operandCount := by
    refine List.ext_getElem (by simp [i.length_operandBytes, hn]) fun k hk _ => ?_
    rw [i.length_operandBytes] at hk
    have hbyte := hm (k + 1) (by omega)
    rw [← fetchAddress_eq] at hbyte
    rw [List.getElem_take]
    match k with
    | 0 => exact hbyte.symm
    | 1 => exact hbyte.symm
    | k + 2 => omega
  exact fetchDecode_ok.mpr ⟨decodeLatched_ok_iff.mpr ⟨hop, hops⟩, by omega⟩

/-- Settles O8: the step decodes `i`, so it is `exec` of it. -/
theorem stepRunsInstructionInMemory : Obligations.StepRunsInstructionInMemory :=
  fun _ _ hr hpc hm => step_running hr (fetchDecode_of_encode hpc hm)

end Sys2Proof.Machine
end

section
/-! PROOFS. Which fault an instruction takes: its rule makes the checks of `ruleChecks` in order (R172, R175), so what
`exec` answers is decided by the first of them that fails (`exec_firstRaise`). -/

namespace Sys2Proof.Machine

/-- Checks in sequence: the second list decides only where the first has no failing check. -/
theorem firstRaise_append (cs ds : List Check) : firstRaise (cs ++ ds) = (firstRaise cs).or (firstRaise ds) := by
  induction cs with
  | nil => rfl
  | cons c cs ih =>
    cases h : c.fails <;> simp [firstRaise, h, ih]

/-- A computation makes the checks `cs` in order: it raises the fault of the first one that fails, and where none
fails it answers a value with property `Q`. -/
structure MakesChecks {α : Type} (cs : List Check) (Q : α → Prop) (x : Except Raise α) : Prop where
  raises : ∀ r, x = .error r → firstRaise cs = some r
  answers : ∀ a, x = .ok a → firstRaise cs = none ∧ Q a

namespace MakesChecks

variable {α β : Type} {P : α → Prop} {Q : β → Prop} {cs ds : List Check} {x : Except Raise α}

/-- A computation that makes no check answers. -/
theorem ok {a : α} (h : P a) : MakesChecks [] P (.ok a) where
  raises := nofun
  answers := by
    rintro _ ⟨⟩
    exact ⟨rfl, h⟩

/-- One check: it fails where the computation raises, and does not where it answers. -/
theorem single {c : Check} (hraise : ∀ r, x = .error r → c.fails = true ∧ r = c.raises)
    (hok : ∀ a, x = .ok a → c.fails = false ∧ P a) : MakesChecks [c] P x where
  raises r h := by
    obtain ⟨hc, rfl⟩ := hraise r h
    simp [firstRaise, hc]
  answers a h := by
    obtain ⟨hc, ha⟩ := hok a h
    exact ⟨by simp [firstRaise, hc], ha⟩

/-- In sequence, the first computation's checks stand before the second's. -/
theorem bind {f : α → Except Raise β} (hx : MakesChecks cs P x) (hf : ∀ a, P a → MakesChecks ds Q (f a)) :
    MakesChecks (cs ++ ds) Q (x >>= f) where
  raises r h := by
    rw [firstRaise_append]
    rcases except_bind_error.mp h with h | ⟨a, ha, h⟩
    · simp [hx.raises r h]
    · obtain ⟨hcs, hP⟩ := hx.answers a ha
      simp [hcs, (hf a hP).raises r h]
  answers b h := by
    obtain ⟨a, ha, h⟩ := except_bind_ok.mp h
    obtain ⟨hcs, hP⟩ := hx.answers a ha
    obtain ⟨hds, hQ⟩ := (hf a hP).answers b h
    exact ⟨by simp [firstRaise_append, hcs, hds], hQ⟩

end MakesChecks

variable {s t : State} {i : Instr}

/-! ### The checks of the shared operations -/

/-- Item 3 of R175: the operand byte names a register. -/
def registerCheck (b : Byte) : Check := ⟨!validRegister b, ⟨.badRegister, b.toNat⟩⟩

/-- Item 4 of R175: the register that the operand byte names is written. -/
def writtenCheck (s : State) (b : Byte) : Check := ⟨s.unwrittenOperand b, ⟨.unwrittenRegister, b.toNat⟩⟩

/-- Item 6 of R175: the next address or return address is in 0..255. -/
def addressCheck (n : Nat) : Check := ⟨255 < n, ⟨.pcOutOfRange, n⟩⟩

/-- Item 5 of R175 for a push: SP is not 0. -/
def pushCheck (sp : Byte) : Check := ⟨sp = 0x00#8, ⟨.stackBelowZero, 0⟩⟩

/-- Item 5 of R175 for a pop: the pointer that is incremented is not 255. -/
def popCheck (p : Byte) : Check := ⟨p = 0xFF#8, ⟨.stackAboveTop, 256⟩⟩

theorem checkReg_makesChecks (b : Byte) :
    MakesChecks [registerCheck b] (fun r => r.val = b.toNat) (checkReg b) :=
  .single
    (fun _ h => (checkReg_error.mp h).imp_left fun hb => by simpa [registerCheck, validRegister] using hb)
    (fun r h => by
      have hr := checkReg_ok.mp h
      exact ⟨by simp [registerCheck, validRegister, ← hr], hr⟩)

theorem unwrittenOperand_of_index {b : Byte} {j : RegIndex} (h : j.val = b.toNat) :
    s.unwrittenOperand b = !(s.reg j).written := by
  simp [State.unwrittenOperand, ← h]

theorem readReg_makesChecks {b : Byte} {j : RegIndex} (h : j.val = b.toNat) :
    MakesChecks [writtenCheck s b] (fun _ => True) (s.readReg j) :=
  .single
    (fun _ hr => by
      obtain ⟨hw, rfl⟩ := readReg_error.mp hr
      simp [writtenCheck, unwrittenOperand_of_index h, hw, h])
    (fun _ hv => by simp [writtenCheck, unwrittenOperand_of_index h, (readReg_ok.mp hv).1])

/-- Reading SP is no check where SP is written (R24). -/
theorem readSp_makesChecks (hsp : (s.reg Config.spIndex).written = true) :
    MakesChecks [] (fun sp => sp = s.sp) s.readSp := by
  rw [State.readSp, readReg_written hsp]
  exact .ok rfl

theorem pushSlot_makesChecks (sp : Byte) : MakesChecks [pushCheck sp] (fun _ => True) (pushSlot sp) :=
  .single
    (fun _ h => (pushSlot_error.mp h).imp_left fun h0 => decide_eq_true (BitVec.eq_of_toNat_eq h0))
    (fun _ h => by
      have h1 := (pushSlot_ok.mp h).1
      refine ⟨decide_eq_false ?_, trivial⟩
      rintro rfl
      exact absurd h1 (by decide))

theorem popPointer_makesChecks (p : Byte) : MakesChecks [popCheck p] (fun _ => True) (popPointer p) :=
  .single
    (fun _ h => (popPointer_error.mp h).imp_left fun h255 => decide_eq_true (BitVec.eq_of_toNat_eq h255))
    (fun _ h => by
      have h254 := (popPointer_ok.mp h).1
      refine ⟨decide_eq_false ?_, trivial⟩
      rintro rfl
      exact absurd h254 (by decide))

theorem fallthrough_makesChecks (n : Nat) :
    MakesChecks [addressCheck (s.pc.toNat + 1 + n)] (fun _ => True) (s.fallthrough n) :=
  .single
    (fun _ h => (fallthrough_error.mp h).imp_left decide_eq_true)
    (fun _ h => ⟨decide_eq_false (Nat.not_lt.mpr (fallthrough_ok.mp h).1), trivial⟩)

theorem returnAddress_makesChecks :
    MakesChecks [addressCheck (s.pc.toNat + 2)] (fun _ => True) s.returnAddress :=
  .single
    (fun _ h => (returnAddress_error.mp h).imp_left decide_eq_true)
    (fun _ h => ⟨decide_eq_false (Nat.not_lt.mpr (returnAddress_ok.mp h).1), trivial⟩)

theorem readOperand_makesChecks (a : Byte) :
    MakesChecks [registerCheck a, writtenCheck s a] (fun _ => True) (s.readOperand a) :=
  (checkReg_makesChecks a).bind fun _ hr => readReg_makesChecks hr

theorem readPair_makesChecks (a b : Byte) :
    MakesChecks [registerCheck a, registerCheck b, writtenCheck s a, writtenCheck s b] (fun _ => True)
      (s.readPair a b) :=
  (checkReg_makesChecks a).bind fun _ ha =>
    (checkReg_makesChecks b).bind fun _ hb =>
      (readReg_makesChecks ha).bind fun _ _ =>
        (readReg_makesChecks hb).bind fun _ _ => .ok trivial

theorem readPushOperand_makesChecks (hsp : (s.reg Config.spIndex).written = true) (a : Byte) :
    MakesChecks [registerCheck a, writtenCheck s a, pushCheck s.sp] (fun _ => True) (s.readPushOperand a) :=
  (checkReg_makesChecks a).bind fun _ hr =>
    (readSp_makesChecks hsp).bind fun _ hv =>
      (readReg_makesChecks hr).bind fun _ _ =>
        hv ▸ (pushSlot_makesChecks _).bind fun _ _ => .ok trivial

/-- The shape that ends most rules: the fall-through check, and then updates that leave `run` alone (R87). -/
theorem MakesChecks.thenFallthrough {α : Type} {cs : List Check} {P : α → Prop} {x : Except Raise α}
    {f : α → Byte → State} (hx : MakesChecks cs P x) (n : Nat) (hf : ∀ a np, (f a np).run = s.run) :
    MakesChecks (cs ++ [addressCheck (s.pc.toNat + 1 + n)]) (fun t => t.run = s.run)
      (do
        let a ← x
        let np ← s.fallthrough n
        .ok (f a np)) :=
  hx.bind fun a _ => (fallthrough_makesChecks n).bind fun np _ => .ok (hf a np)

/-- ADD and MUL make the same checks (R101, R102). -/
theorem binaryAlu_makesChecks (f : Byte → Byte → Byte) (a b : Byte) :
    MakesChecks (ruleChecks (.add a b) s) (fun t => t.run = s.run) (s.binaryAlu f a b) :=
  (readPair_makesChecks a b).thenFallthrough 2 fun _ _ => rfl

/-- JEQ and JNE: the register is checked, and then read if the jump is taken; otherwise the fall-through is checked
(R144, R145). -/
theorem condJump_makesChecks (taken : Bool) (a : Byte) :
    MakesChecks (registerCheck a :: if taken then [writtenCheck s a] else [addressCheck (s.pc.toNat + 2)])
      (fun t => t.run = s.run) (s.condJump taken a) := by
  refine (checkReg_makesChecks a).bind fun r hr => ?_
  cases taken with
  | true => exact (readReg_makesChecks hr).bind fun _ _ => .ok rfl
  | false => exact (fallthrough_makesChecks 1).bind fun _ _ => .ok rfl

/-! ### The rules -/

/-- What a rule that makes the table's checks ends in: the first failing check's fault, or its own state. -/
theorem MakesChecks.commit {cs : List Check} {Q : State → Prop} {x : Except Raise State} (h : MakesChecks cs Q x)
    (s : State) :
    (∃ r, firstRaise cs = some r ∧ commit s x = .next (s.raise r)) ∨
      (firstRaise cs = none ∧ ∃ t, commit s x = .next t ∧ Q t) := by
  cases hx : x with
  | error r => exact .inl ⟨r, h.raises r hx, rfl⟩
  | ok t => exact .inr ⟨(h.answers t hx).1, t, rfl, (h.answers t hx).2⟩

/-- An operand byte names SP exactly if it is 7 (R22). -/
theorem eq_spIndex_iff {a : Byte} {j : RegIndex} (h : j.val = a.toNat) : j = Config.spIndex ↔ a = 0x07#8 := by
  rw [Fin.ext_iff, h]
  exact BitVec.toNat_inj (y := 0x07#8)

theorem ruleChecks_jeq (a : Byte) (s : State) :
    ruleChecks (.jeq a) s =
      registerCheck a :: if s.takesJeq then [writtenCheck s a] else [addressCheck (s.pc.toNat + 2)] := by
  cases h : s.flag <;> simp only [ruleChecks, registersRead, nextAddress, State.takesJeq, h] <;> rfl

theorem ruleChecks_jne (a : Byte) (s : State) :
    ruleChecks (.jne a) s =
      registerCheck a :: if s.takesJne then [writtenCheck s a] else [addressCheck (s.pc.toNat + 2)] := by
  cases h : s.flag <;> simp only [ruleChecks, registersRead, nextAddress, State.takesJne, h] <;> rfl

/-- Every rule but HLT's makes the checks of the table in its order and leaves `run` alone (R172, R175). -/
theorem exec_eq_commit_makesChecks (hsp : (s.reg Config.spIndex).written = true) (hi : i ≠ .hlt) :
    ∃ x, exec i s = commit s x ∧ MakesChecks (ruleChecks i s) (fun t => t.run = s.run) x := by
  cases i
  case hlt => exact absurd rfl hi
  all_goals refine ⟨_, rfl, ?_⟩
  case ret =>
    exact (readSp_makesChecks hsp).bind fun _ hv =>
      hv ▸ (popPointer_makesChecks _).bind fun _ _ => .ok rfl
  case push a => exact (readPushOperand_makesChecks hsp a).thenFallthrough 1 fun _ _ => rfl
  case pop a =>
    refine (checkReg_makesChecks a).bind fun r hr => (readSp_makesChecks hsp).bind fun sp hv => ?_
    simp only [hv, eq_spIndex_iff hr]
    exact (popPointer_makesChecks _).thenFallthrough 1 fun _ _ => rfl
  case prn a => exact (readOperand_makesChecks a).thenFallthrough 1 fun _ _ => rfl
  case call a =>
    exact (readPushOperand_makesChecks hsp a).bind fun _ _ =>
      returnAddress_makesChecks.bind fun _ _ => .ok rfl
  case jmp a => exact (readOperand_makesChecks a).bind fun _ _ => .ok rfl
  case jeq a => exact ruleChecks_jeq a s ▸ condJump_makesChecks s.takesJeq a
  case jne a => exact ruleChecks_jne a s ▸ condJump_makesChecks s.takesJne a
  case ldi a imm => exact (checkReg_makesChecks a).thenFallthrough 2 fun _ _ => rfl
  case add a b => exact binaryAlu_makesChecks aluAdd a b
  case mul a b => exact binaryAlu_makesChecks aluMul a b
  case cmp a b => exact (readPair_makesChecks a b).thenFallthrough 2 fun _ _ => rfl

/-- What `exec` answers, by the table: the first failing check's fault, or the state the rule commits (R172, R175). -/
theorem exec_firstRaise (hsp : (s.reg Config.spIndex).written = true) (i : Instr) :
    (∃ r, firstRaise (ruleChecks i s) = some r ∧ exec i s = .next (s.raise r)) ∨
      (firstRaise (ruleChecks i s) = none ∧
        ∃ t, exec i s = .next t ∧ t.run = if i = .hlt then .halted else s.run) := by
  by_cases hi : i = .hlt
  · subst hi
    exact .inr ⟨rfl, s.halt, rfl, rfl⟩
  · obtain ⟨x, hx, hc⟩ := exec_eq_commit_makesChecks hsp hi
    rw [hx, if_neg hi]
    exact hc.commit s

end Sys2Proof.Machine
end

section
/-! PROOFS. The step (`40_fetch_decode_execute.md`): it fetches, decodes and dispatches, always answers a state, takes a
fault in the state it found, and does nothing once the core has stopped. -/

namespace Sys2Proof.Machine

variable {s t : State} {i : Instr}

/-! ### Faulting steps -/

/-- The record tells which fault was taken (R31). -/
theorem raise_injective (s : State) : Function.Injective s.raise := by
  intro r r' h
  have hrec : s.faultRecord r = s.faultRecord r' := RunState.faulted.inj (congrArg State.run h)
  obtain ⟨hkind, hdetail⟩ : r.kind = r'.kind ∧ r.detail = r'.detail :=
    ⟨congrArg FaultRecord.kind hrec, congrArg FaultRecord.detail hrec⟩
  cases r
  cases r'
  exact congr (congrArg Raise.mk hkind) hdetail

/-- A fault of decode or of the operand check is the one items 1 and 2 of R175 give. -/
theorem stepRaise_of_fetchDecode_error {r : Raise} (h : s.fetchDecode = .error r) : s.stepRaise = some r := by
  unfold State.stepRaise
  rcases fetchDecode_error.mp h with ⟨e, hd, rfl⟩ | ⟨i, hd, hn, rfl⟩
  · rw [hd]
  · simp [hd, firstRaise, hn]

/-- Past decode and the operand check, the instruction's own checks decide (R175). -/
theorem stepRaise_of_fetchDecode_ok (h : s.fetchDecode = .ok i) : s.stepRaise = firstRaise (ruleChecks i s) := by
  obtain ⟨hd, hn⟩ := fetchDecode_ok.mp h
  unfold State.stepRaise
  simp [hd, firstRaise, Nat.not_lt.mpr hn]

/-- A step from a running state that ends faulted has taken one fault, in the state it found (R88). -/
theorem exists_raise_of_step_faulted {rec : FaultRecord} (hr : s.run = .running) (h : step s = .next t)
    (ht : t.run = .faulted rec) : ∃ r, t = s.raise r := by
  rcases step_next_cases h with ⟨hs, -⟩ | ⟨-, i, -, he⟩ | ⟨-, r, -, rfl⟩
  · exact absurd hr hs
  · obtain hrun | ⟨-, hrun⟩ | ⟨r, -, rfl⟩ := (exec_confined he).run
    · simp [hrun, hr] at ht
    · simp [hrun] at ht
    · exact ⟨r, rfl⟩
  · exact ⟨r, rfl⟩

/-- The fault a step takes is the first applicable one (R175). -/
theorem stepRaise_of_step_raise {r : Raise} (hsp : (s.reg Config.spIndex).written = true) (hr : s.run = .running)
    (h : step s = .next (s.raise r)) : s.stepRaise = some r := by
  cases hd : s.fetchDecode with
  | error r' =>
    rw [stepRaise_of_fetchDecode_error hd]
    exact congrArg some (raise_injective s (Host.Outcome.next.inj ((step_raises hr hd).symm.trans h)))
  | ok i =>
    rw [stepRaise_of_fetchDecode_ok hd]
    rw [step_running hr hd] at h
    obtain ⟨r', hfirst, he⟩ | ⟨-, t, he, hrun⟩ := exec_firstRaise hsp i
    · obtain rfl : r' = r := raise_injective s (Host.Outcome.next.inj (he.symm.trans h))
      exact hfirst
    · obtain rfl : t = s.raise r := Host.Outcome.next.inj (he.symm.trans h)
      split at hrun <;> simp [hr] at hrun

/-- Settles O25: the new state is `s.raise r` for one fault `r`, which is the first applicable one. -/
theorem faultingStepChangesOnlyRun : Obligations.FaultingStepChangesOnlyRun := by
  intro s t rec hr h ht
  obtain ⟨r, rfl⟩ := exists_raise_of_step_faulted hr h ht
  obtain rfl : s.faultRecord r = rec := RunState.faulted.inj ht
  exact ⟨rfl, rfl, rfl, rfl, fun hsp => stepRaise_of_step_raise hsp hr h⟩

/-! ### Stopped cores and answers -/

/-- Settles O10: by induction on the number of steps, each of which answers the state itself. -/
theorem stoppedCoreStays : Obligations.StoppedCoreStays := by
  intro s k hr
  induction k with
  | zero => rfl
  | succ k ih =>
    have hstep : core.step s = .next s := step_stopped hr
    calc Host.Core.run core (k + 1) s
      _ = Host.Core.run core k s := by simp only [Host.Core.run, hstep]
      _ = .next s := ih

/-- Settles O40: a stopped core answers itself, and a running one what the instruction or the raised fault gives. -/
theorem stepAlwaysAnswersState : Obligations.StepAlwaysAnswersState := by
  intro s
  by_cases hr : s.run = .running
  · cases hd : s.fetchDecode with
    | ok i => exact step_running hr hd ▸ exec_next i s
    | error r => exact ⟨_, step_raises hr hd⟩
  · exact ⟨s, step_stopped hr⟩

/-! ### Fetch, decode, dispatch -/

/-- Settles O7: the bytes are those that the step latches, and its three answers are those of `fetchDecode`. -/
theorem stepFetchesDecodesDispatches : Obligations.StepFetchesDecodesDispatches := by
  intro s hr
  refine ⟨fun e he => ?unknown, fun i hi hn => ?operand, fun i hi hn => ?dispatch⟩
  case unknown => exact step_raises hr (fetchDecode_error.mpr (.inl ⟨e, he, rfl⟩))
  case operand => exact step_raises hr (fetchDecode_error.mpr (.inr ⟨i, hi, hn, rfl⟩))
  case dispatch => exact step_running hr (fetchDecode_ok.mpr ⟨hi, hn⟩)

/-- Settles O9: the byte does not decode, so the step takes `UnknownOpcode`. -/
theorem unknownOpcodeEndsRun : Obligations.UnknownOpcodeEndsRun := by
  intro s hr hop
  have hd := (opcodeDecodesExactlyIfListed s.fetch.op s.fetch.a s.fetch.b).1 hop
  exact step_raises hr (fetchDecode_error.mpr (.inl ⟨_, hd, rfl⟩))

end Sys2Proof.Machine
end

section
/-! PROOFS. Data movement and the ALU (`41_data_alu.md`): LDI, ADD, MUL and CMP. Where a rule runs to its end is
`exec_of_completes`; which fault it takes otherwise is decided by its checks (`MakesChecks.commit_raise`). -/

namespace Sys2Proof.Machine

variable {s t : State} {i : Instr}

/-! ### The two outcomes of a rule -/

/-- Where an instruction's rule runs to its end, `exec` answers the state it commits (R87): the converse of
`completes_of_faultFree`. -/
theorem exec_of_completes (h : Completes i s t) : exec i s = .next t := by
  cases i
  case hlt => exact h ▸ rfl
  all_goals refine commit_eq_next.mpr (.inl ?_)
  case ret =>
    obtain ⟨hw, hp, rfl⟩ := h
    exact except_bind_ok.mpr ⟨_, readReg_written hw, except_bind_ok.mpr ⟨_, popPointer_ok.mpr ⟨hp, rfl⟩, rfl⟩⟩
  case push a | prn a =>
    obtain ⟨p, hp, h2, rfl⟩ := h
    exact except_bind_ok.mpr ⟨p, hp, except_bind_ok.mpr ⟨_, fallthrough_one_ok.mpr ⟨h2, rfl⟩, rfl⟩⟩
  case pop a =>
    obtain ⟨r, nsp, hr, hw, hp, h2, rfl⟩ := h
    exact except_bind_ok.mpr ⟨r, checkReg_ok.mpr hr, except_bind_ok.mpr ⟨_, readReg_written hw,
      except_bind_ok.mpr ⟨nsp, hp, except_bind_ok.mpr ⟨_, fallthrough_one_ok.mpr ⟨h2, rfl⟩, rfl⟩⟩⟩⟩
  case call a =>
    obtain ⟨p, hp, h2, rfl⟩ := h
    exact except_bind_ok.mpr ⟨p, hp, except_bind_ok.mpr ⟨_, returnAddress_ok.mpr ⟨h2, rfl⟩, rfl⟩⟩
  case jmp a =>
    obtain ⟨v, hv, rfl⟩ := h
    exact except_bind_ok.mpr ⟨v, hv, rfl⟩
  case jeq a => exact condJump_ok.mpr h
  case jne a =>
    simp only [condJump_ok, State.takesJne, Bool.not_eq_true', Bool.not_eq_false']
    exact h
  case ldi a imm | cmp a b =>
    obtain ⟨r, hr, h3, rfl⟩ := h
    exact except_bind_ok.mpr ⟨r, hr, except_bind_ok.mpr ⟨_, fallthrough_two_ok.mpr ⟨h3, rfl⟩, rfl⟩⟩
  case add a b | mul a b => exact binaryAlu_ok.mpr h

/-- A rule whose first failing check raises `r` takes that fault (R88, R175). -/
theorem MakesChecks.commit_raise {cs : List Check} {Q : State → Prop} {x : Except Raise State} {r : Raise}
    (h : MakesChecks cs Q x) (hr : firstRaise cs = some r) : Machine.commit s x = .next (s.raise r) := by
  rcases h.commit s with ⟨r', hr', hx⟩ | ⟨hnone, -⟩
  · obtain rfl : r' = r := Option.some.inj (hr'.symm.trans hr)
    exact hx
  · simp [hr] at hnone

/-! ### When a check is the first to fail -/

theorem firstRaise_fails {c : Check} (hc : c.fails = true) (cs : List Check) :
    firstRaise (c :: cs) = some c.raises := by
  simp [firstRaise, hc]

theorem firstRaise_passes {c : Check} (hc : c.fails = false) (cs : List Check) :
    firstRaise (c :: cs) = firstRaise cs := by
  simp [firstRaise, hc]

theorem registerCheck_fails {b : Byte} (h : 8 ≤ b.toNat) : (registerCheck b).fails = true := by
  simpa [registerCheck, validRegister] using h

theorem registerCheck_passes {b : Byte} (h : b.toNat < 8) : (registerCheck b).fails = false := by
  simpa [registerCheck, validRegister] using h

theorem toNat_lt_eight_of_index {b : Byte} {j : RegIndex} (h : j.val = b.toNat) : b.toNat < 8 := h ▸ j.isLt

theorem writtenCheck_fails {b : Byte} {j : RegIndex} (h : j.val = b.toNat) (hw : (s.reg j).written = false) :
    (writtenCheck s b).fails = true := by
  simp [writtenCheck, unwrittenOperand_of_index h, hw]

theorem writtenCheck_passes {b : Byte} {j : RegIndex} (h : j.val = b.toNat) (hw : (s.reg j).written = true) :
    (writtenCheck s b).fails = false := by
  simp [writtenCheck, unwrittenOperand_of_index h, hw]

theorem addressCheck_fails {n : Nat} (h : 256 ≤ n) : (addressCheck n).fails = true := decide_eq_true h

/-! ### LDI (R100) -/

/-- LDI checks its register operand and then its fall-through. -/
theorem execLdi_makesChecks (a imm : Byte) :
    MakesChecks [registerCheck a, addressCheck (s.pc.toNat + 3)] (fun t => t.run = s.run)
      (do
        let r ← checkReg a
        let np ← s.fallthrough 2
        .ok ((s.writeReg r (immediate imm)).setPc np)) :=
  (checkReg_makesChecks a).thenFallthrough 2 fun _ _ => rfl

/-- Settles O11: its two checks decide between the two faults and the write. -/
theorem ldiLoadsImmediate : Obligations.LdiLoadsImmediate := by
  refine ⟨fun a imm rest => decodeInvertsEncode (.ldi a imm) rest, fun a imm s => ?_⟩
  have checks := execLdi_makesChecks (s := s) a imm
  refine ⟨fun ha => checks.commit_raise ?badRegister, fun ra ha =>
    ⟨fun h3 => exec_of_completes ⟨ra, checkReg_of_index ha, h3, rfl⟩, fun h3 => checks.commit_raise ?outOfRange⟩⟩
  case badRegister => exact firstRaise_fails (registerCheck_fails ha) _
  case outOfRange =>
    rw [firstRaise_passes (registerCheck_passes (toNat_lt_eight_of_index ha))]
    exact firstRaise_fails (addressCheck_fails h3) _

/-! ### ADD, MUL and CMP (R101 to R103) -/

/-- The faults of a rule that makes ADD's checks, in their order, beside its effect `u ra rb` on the registers named
(R101): MUL and CMP fault as ADD does (R102, R103). -/
theorem pairRule_answers {a b : Byte} {Q : State → Prop} {x : Except Raise State} {u : RegIndex → RegIndex → State}
    (h : MakesChecks (ruleChecks (.add a b) s) Q x)
    (hok : ∀ ra rb : RegIndex, ra.val = a.toNat → rb.val = b.toNat → (s.reg ra).written = true →
      (s.reg rb).written = true → s.pc.toNat + 3 ≤ 255 → commit s x = .next (u ra rb)) :
    (8 ≤ a.toNat → commit s x = .next (s.raise ⟨.badRegister, a.toNat⟩)) ∧
    (a.toNat < 8 → 8 ≤ b.toNat → commit s x = .next (s.raise ⟨.badRegister, b.toNat⟩)) ∧
    ∀ ra rb : RegIndex, ra.val = a.toNat → rb.val = b.toNat →
      ((s.reg ra).written = true → (s.reg rb).written = true → s.pc.toNat + 3 ≤ 255 →
        commit s x = .next (u ra rb)) ∧
      ((s.reg ra).written = false → commit s x = .next (s.raise ⟨.unwrittenRegister, a.toNat⟩)) ∧
      ((s.reg ra).written = true → (s.reg rb).written = false →
        commit s x = .next (s.raise ⟨.unwrittenRegister, b.toNat⟩)) ∧
      ((s.reg ra).written = true → (s.reg rb).written = true → 256 ≤ s.pc.toNat + 3 →
        commit s x = .next (s.raise ⟨.pcOutOfRange, s.pc.toNat + 3⟩)) := by
  have checks : MakesChecks [registerCheck a, registerCheck b, writtenCheck s a, writtenCheck s b,
    addressCheck (s.pc.toNat + 3)] Q x := h
  refine ⟨fun ha => checks.commit_raise (firstRaise_fails (registerCheck_fails ha) _),
    fun ha hb => checks.commit_raise ?badB, fun ra rb ha hb => ?named⟩
  case badB =>
    rw [firstRaise_passes (registerCheck_passes ha)]
    exact firstRaise_fails (registerCheck_fails hb) _
  case named =>
    have hregs : firstRaise [registerCheck a, registerCheck b, writtenCheck s a, writtenCheck s b,
        addressCheck (s.pc.toNat + 3)] =
        firstRaise [writtenCheck s a, writtenCheck s b, addressCheck (s.pc.toNat + 3)] := by
      rw [firstRaise_passes (registerCheck_passes (toNat_lt_eight_of_index ha)),
        firstRaise_passes (registerCheck_passes (toNat_lt_eight_of_index hb))]
    refine ⟨hok ra rb ha hb, fun hwa => checks.commit_raise (hregs.trans ?unwrittenA),
      fun hwa hwb => checks.commit_raise (hregs.trans ?unwrittenB),
      fun hwa hwb h3 => checks.commit_raise (hregs.trans ?outOfRange)⟩
    case unwrittenA => exact firstRaise_fails (writtenCheck_fails ha hwa) _
    case unwrittenB =>
      rw [firstRaise_passes (writtenCheck_passes ha hwa)]
      exact firstRaise_fails (writtenCheck_fails hb hwb) _
    case outOfRange =>
      rw [firstRaise_passes (writtenCheck_passes ha hwa), firstRaise_passes (writtenCheck_passes hb hwb)]
      exact firstRaise_fails (addressCheck_fails h3) _

/-- Two written operands are read as they stand, `a` as the destination. -/
theorem readPair_of_index {a b : Byte} {ra rb : RegIndex} (ha : ra.val = a.toNat) (hb : rb.val = b.toNat)
    (hwa : (s.reg ra).written = true) (hwb : (s.reg rb).written = true) :
    s.readPair a b = .ok ⟨ra, (s.reg ra).value, (s.reg rb).value⟩ :=
  readPair_ok.mpr ⟨ha, hwa, rfl, rb, hb, hwb, rfl⟩

/-- Settles O12: ADD commits the sum of the pair it reads. -/
theorem addSumsModulo256 : Obligations.AddSumsModulo256 :=
  ⟨fun a b rest => decodeInvertsEncode (.add a b) rest, fun a b _ =>
    pairRule_answers (binaryAlu_makesChecks aluAdd a b) fun _ _ ha hb hwa hwb h3 =>
      exec_of_completes (i := .add a b) ⟨_, readPair_of_index ha hb hwa hwb, h3, rfl⟩⟩

/-- Settles O13: MUL commits the product of the pair it reads. -/
theorem mulMultipliesModulo256 : Obligations.MulMultipliesModulo256 :=
  ⟨fun a b rest => decodeInvertsEncode (.mul a b) rest, fun a b _ =>
    pairRule_answers (binaryAlu_makesChecks aluMul a b) fun _ _ ha hb hwa hwb h3 =>
      exec_of_completes (i := .mul a b) ⟨_, readPair_of_index ha hb hwa hwb, h3, rfl⟩⟩

/-- CMP's flag, by the values as numbers (R21, R103). -/
theorem compareFlag_eq (va vb : Byte) : compareFlag va vb = if va.toNat = vb.toNat then true else false := by
  simp [compareFlag, BitVec.toNat_inj]

/-- Settles O14: CMP commits the flag of the pair it reads. -/
theorem cmpRecordsEquality : Obligations.CmpRecordsEquality := by
  refine ⟨fun a b rest => decodeInvertsEncode (.cmp a b) rest, fun a b s => ?_⟩
  refine pairRule_answers ((readPair_makesChecks a b).thenFallthrough 2 fun _ _ => rfl)
    fun ra rb ha hb hwa hwb h3 => ?_
  rw [← compareFlag_eq]
  exact exec_of_completes (i := .cmp a b) ⟨_, readPair_of_index ha hb hwa hwb, h3, rfl⟩

/-! ### LDI and then PRN (E6) -/

/-- Settles O48: LDI leaves the register written with the value and `pc` three further, so that PRN reads the value and
has room for its own two bytes. -/
theorem printAfterLoadEmitsValue : Obligations.PrintAfterLoadEmitsValue := by
  intro a v s ha hpc
  obtain ⟨ra, hra⟩ : ∃ ra : RegIndex, ra.val = a.toNat := ⟨⟨a.toNat, ha⟩, rfl⟩
  refine ⟨(s.writeReg ra v).setPc (BitVec.ofNat 8 (s.pc.toNat + 3)), _,
    exec_of_completes ⟨ra, checkReg_of_index hra, by omega, rfl⟩,
    exec_of_completes ⟨v, ?read, ?room, rfl⟩, rfl, rfl⟩
  case read => exact readOperand_ok.mpr ⟨ra, hra, by simp, by simp⟩
  case room =>
    rw [State.setPc_pc, toNat_ofNat_of_le (by omega)]
    omega

end Sys2Proof.Machine
end

section
/-! PROOFS. The stack (`42_stack.md`): PUSH and POP, and that a balanced sequence of them leaves SP and every byte from
SP on as they were (`BalancedStackOps.keepsStack`), so that a POP finds the byte of its matching PUSH. -/

namespace Sys2Proof.Machine

variable {s t : State} {i : Instr}

/-- An instruction whose first failing check raises `r` takes that fault (R88, R175). -/
theorem exec_raise {r : Raise} (hsp : (s.reg Config.spIndex).written = true)
    (hr : firstRaise (ruleChecks i s) = some r) : exec i s = .next (s.raise r) := by
  rcases exec_firstRaise hsp i with ⟨r', hr', he⟩ | ⟨hnone, -⟩
  · obtain rfl : r' = r := Option.some.inj (hr'.symm.trans hr)
    exact he
  · simp [hr] at hnone

/-! ### PUSH (R121) -/

/-- The checks of PUSH, in order (R121). -/
theorem ruleChecks_push (a : Byte) (s : State) :
    ruleChecks (.push a) s = [registerCheck a, writtenCheck s a, pushCheck s.sp, addressCheck (s.pc.toNat + 2)] := rfl

theorem pushCheck_fails {sp : Byte} (h : sp.toNat = 0) : (pushCheck sp).fails = true :=
  decide_eq_true (BitVec.eq_of_toNat_eq h)

theorem pushCheck_passes {sp : Byte} (h : 1 ≤ sp.toNat) : (pushCheck sp).fails = false := by
  refine decide_eq_false ?_
  rintro rfl
  exact absurd h (by decide)

/-- A push's two writes as a record update, its cell given as a number. -/
theorem pushByte_eq {slot : Byte} {n : Nat} (h : slot.toNat = n) (v : Byte) :
    s.pushByte slot v = { s with regs := s.regs.set 7 ⟨slot, true⟩, mem := Memory.write s.mem n v } :=
  h ▸ rfl

/-- Settles O15: PUSH commits its two writes where its four checks pass, and takes the first failing one's fault. -/
theorem pushStoresBelowStackPointer : Obligations.PushStoresBelowStackPointer := by
  refine ⟨fun a rest => decodeInvertsEncode (.push a) rest, fun a s hsp => ⟨fun ha => exec_raise hsp ?badRegister,
    fun ra ha => ⟨fun hw h1 h2 => ?completes, fun hw => exec_raise hsp ?unwritten,
      fun hw h0 => exec_raise hsp ?belowZero, fun hw h1 h2 => exec_raise hsp ?outOfRange⟩⟩⟩
  case badRegister => exact firstRaise_fails (registerCheck_fails ha) _
  case completes =>
    have hslot : (BitVec.ofNat 8 (s.sp.toNat - 1)).toNat = s.sp.toNat - 1 :=
      toNat_ofNat_of_le (by have := s.sp.isLt; omega)
    exact exec_of_completes ⟨⟨_, _⟩, readPushOperand_ok.mpr ⟨ra, ha, hsp, hw, h1, rfl, rfl⟩, h2,
      congrArg (State.setPc · _) (pushByte_eq hslot _).symm⟩
  all_goals rw [ruleChecks_push, firstRaise_passes (registerCheck_passes (toNat_lt_eight_of_index ha))]
  case unwritten => exact firstRaise_fails (writtenCheck_fails ha hw) _
  all_goals rw [firstRaise_passes (writtenCheck_passes ha hw)]
  case belowZero => exact firstRaise_fails (pushCheck_fails h0) _
  case outOfRange =>
    rw [firstRaise_passes (pushCheck_passes h1)]
    exact firstRaise_fails (addressCheck_fails h2) _

/-! ### POP (R122) -/

/-- The byte that POP increments to get the new SP: the popped byte for R7, SP for another register (R122, R123). -/
def State.popBase (s : State) (r : RegIndex) : Byte := if r = Config.spIndex then s.memRead s.sp else s.sp

theorem toNat_popBase (s : State) (r : RegIndex) :
    (s.popBase r).toNat = if r = 7 then (s.memRead s.sp).toNat else s.sp.toNat :=
  apply_ite ..

/-- The checks of POP with a register operand, in order (R122). -/
theorem ruleChecks_pop {a : Byte} {r : RegIndex} (ha : r.val = a.toNat) (s : State) :
    ruleChecks (.pop a) s = [registerCheck a, popCheck (s.popBase r), addressCheck (s.pc.toNat + 2)] := by
  simp only [State.popBase, eq_spIndex_iff ha]
  rfl

theorem popCheck_fails {p : Byte} (h : p.toNat = 255) : (popCheck p).fails = true :=
  decide_eq_true (BitVec.eq_of_toNat_eq h)

theorem popCheck_passes {p : Byte} (h : p.toNat ≤ 254) : (popCheck p).fails = false := by
  refine decide_eq_false ?_
  rintro rfl
  exact absurd h (by decide)

/-- Settles O16: POP commits its two register writes where its three checks pass, and takes the first failing one's
fault. -/
theorem popLoadsFromStackPointer : Obligations.PopLoadsFromStackPointer := by
  refine ⟨fun a rest => decodeInvertsEncode (.pop a) rest, fun a s hsp =>
    ⟨fun ha => exec_raise hsp (firstRaise_fails (registerCheck_fails ha) _), fun ra ha => ?_⟩⟩
  rw [← toNat_popBase]
  refine ⟨fun hn h2 => exec_of_completes ⟨ra, _, ha, hsp, popPointer_ok.mpr ⟨Nat.le_of_succ_le_succ hn, rfl⟩, h2, rfl⟩,
    fun hn => ?aboveTop, fun hn h2 => exec_raise hsp ?outOfRange⟩
  case aboveTop =>
    have h255 : (s.popBase ra).toNat = 255 := by
      have := (s.popBase ra).isLt
      omega
    rw [h255]
    refine exec_raise hsp ?_
    rw [ruleChecks_pop ha, firstRaise_passes (registerCheck_passes (toNat_lt_eight_of_index ha))]
    exact firstRaise_fails (popCheck_fails h255) _
  case outOfRange =>
    rw [ruleChecks_pop ha, firstRaise_passes (registerCheck_passes (toNat_lt_eight_of_index ha)),
      firstRaise_passes (popCheck_passes (Nat.le_of_succ_le_succ hn))]
    exact firstRaise_fails (addressCheck_fails h2) _

/-! ### What a completed PUSH or POP does to the stack -/

/-- A completed PUSH leaves SP at the cell it stored to. -/
theorem pushSlot_of_push {a : Byte} (h : Completes (.push a) s t) : pushSlot s.sp = .ok t.sp := by
  obtain ⟨p, hp, -, rfl⟩ := h
  simpa [State.sp] using pushSlot_of_readPushOperand hp

/-- The byte on top of the stack after a completed PUSH: the register's value, or the new SP for R7 (R121, R123). -/
theorem memRead_sp_of_push {a : Byte} {ra : RegIndex} (hm : Memory.wf s.mem) (ha : ra.val = a.toNat)
    (h : Completes (.push a) s t) :
    t.memRead t.sp = if ra = 7 then BitVec.ofNat 8 (s.sp.toNat - 1) else (s.reg ra).value := by
  have hslot := (pushSlot_ok.mp (pushSlot_of_push h)).2
  obtain ⟨p, hp, -, rfl⟩ := h
  obtain ⟨r, hr, -, -, -, -, hv⟩ := readPushOperand_ok.mp hp
  obtain rfl : r = ra := Fin.ext (hr.trans ha.symm)
  have hsp : ((s.pushByte p.slot p.value).setPc (BitVec.ofNat 8 (s.pc.toNat + 2))).sp = p.slot := by simp [State.sp]
  rw [← hslot, hsp, State.setPc_memRead, pushByte_memRead_slot hm]
  exact hv

/-- A completed POP of a register other than R7 moves SP up by one and loads the byte it stood at (R122). -/
theorem pop_effect {b : Byte} {rb : RegIndex} (hrb : rb.val = b.toNat) (hb : b ≠ 0x07#8)
    (h : Completes (.pop b) s t) : t.sp.toNat = s.sp.toNat + 1 ∧ (t.reg rb).value = s.memRead s.sp := by
  obtain ⟨r, nsp, hr, -, hn, -, rfl⟩ := h
  obtain rfl : r = rb := Fin.ext (hr.trans hrb.symm)
  have hne : r ≠ Config.spIndex := mt (eq_spIndex_iff hr).mp hb
  rw [if_neg hne] at hn
  obtain ⟨h254, rfl⟩ := popPointer_ok.mp hn
  constructor
  · simpa [State.sp] using toNat_ofNat_of_le (Nat.succ_le_succ h254)
  · simp [hne, State.sp]

/-! ### Sequences of instructions -/

theorem execSeq_cons {w : List Instr} :
    execSeq (i :: w) s = some t ↔ ∃ u, exec i s = .next u ∧ u.run = s.run ∧ execSeq w u = some t := by
  obtain ⟨u, hu⟩ := exec_next i s
  simp [execSeq, hu]

theorem execSeq_append {v w : List Instr} :
    execSeq (v ++ w) s = some t ↔ ∃ u, execSeq v s = some u ∧ execSeq w u = some t := by
  induction v generalizing s with
  | nil => simp [execSeq]
  | cons i v ih =>
    simp only [List.cons_append, execSeq_cons, ih]
    constructor
    · rintro ⟨u, hi, hu, x, hv, hw⟩
      exact ⟨x, ⟨u, hi, hu, hv⟩, hw⟩
    · rintro ⟨x, ⟨u, hi, hu, hv⟩, hw⟩
      exact ⟨u, hi, hu, x, hv, hw⟩

theorem execSeq_run {w : List Instr} (h : execSeq w s = some t) : t.run = s.run := by
  induction w generalizing s with
  | nil => exact congrArg State.run (Option.some.inj h).symm
  | cons i w ih =>
    obtain ⟨u, -, hu, hw⟩ := execSeq_cons.mp h
    exact (ih hw).trans hu

/-- An executed PUSH, sequence and POP, taken apart at the states between them. -/
theorem execSeq_push_pop {a b : Byte} {w : List Instr} (hr : s.run = .running)
    (h : execSeq (.push a :: w ++ [.pop b]) s = some t) :
    ∃ u v, Completes (.push a) s u ∧ u.run = .running ∧ execSeq w u = some v ∧ Completes (.pop b) v t := by
  obtain ⟨v, hpw, hb⟩ := execSeq_append.mp h
  obtain ⟨u, ha, hu, hw⟩ := execSeq_cons.mp hpw
  obtain ⟨_, hb, -, ⟨⟩⟩ := execSeq_cons.mp hb
  exact ⟨u, v, completes_of_faultFree ha fun _ => by simp [hu, hr], hu.trans hr, hw,
    completes_of_faultFree hb fun _ => by simp [execSeq_run h, hr]⟩

/-! ### Balanced sequences (R123) -/

/-- SP and the bytes from SP upwards are the same in `t` as in `s`. -/
structure KeepsStack (s t : State) : Prop where
  sp : t.sp = s.sp
  cells : ∀ adr : Byte, s.sp.toNat ≤ adr.toNat → t.memRead adr = s.memRead adr

namespace KeepsStack

variable {u v : State}

theorem refl (s : State) : KeepsStack s s := ⟨rfl, fun _ _ => rfl⟩

theorem trans (h : KeepsStack s t) (h' : KeepsStack t u) : KeepsStack s u :=
  ⟨h'.sp.trans h.sp, fun adr ha => (h'.cells adr (h.sp ▸ ha)).trans (h.cells adr ha)⟩

/-- PUSH and its matching POP around a part that keeps the stack: the only cell stored to lies below SP. -/
theorem push_pop {a b : Byte} (hpush : Completes (.push a) s u) (h : KeepsStack u v)
    (hpop : Completes (.pop b) v t) (hb : b ≠ 0x07#8) : KeepsStack s t := by
  obtain ⟨rb, _, hrb, -⟩ := id hpop
  have hslot := pushSlot_of_push hpush
  have hdown : u.sp.toNat + 1 = s.sp.toNat := toNat_succ_of_pushSlot hslot
  have hup : t.sp.toNat = v.sp.toNat + 1 := (pop_effect hrb hb hpop).1
  refine ⟨BitVec.eq_of_toNat_eq (by rw [hup, h.sp, hdown]), fun adr ha => ?_⟩
  have hne : adr ≠ u.sp := by
    rintro rfl
    omega
  calc t.memRead adr
    _ = v.memRead adr := hpop.confined.memRead_eq id adr
    _ = u.memRead adr := h.cells adr (by omega)
    _ = s.memRead adr := hpush.confined.memRead_eq_of_ne_slot hslot hne

end KeepsStack

/-- By induction on the way the sequence is balanced. -/
theorem BalancedStackOps.keepsStack {w : List Instr} (hw : BalancedStackOps w) (hr : s.run = .running)
    (h : execSeq w s = some t) : KeepsStack s t := by
  induction hw generalizing s t with
  | none => exact Option.some.inj h ▸ .refl s
  | around a b w hb _ ih =>
    obtain ⟨u, v, hpush, hu, hw, hpop⟩ := execSeq_push_pop hr h
    exact .push_pop hpush (ih hu hw) hpop hb
  | after v w _ _ ihv ihw =>
    obtain ⟨u, hv, hw⟩ := execSeq_append.mp h
    exact (ihv hr hv).trans (ihw ((execSeq_run hv).trans hr) hw)

/-- Settles O45: the balanced part keeps SP and the byte there, which PUSH stored and POP loads. -/
theorem popReturnsMatchingPush : Obligations.PopReturnsMatchingPush := by
  intro a b w s t ra rb ha hrb hb hw hs hr h
  obtain ⟨u, v, hpush, hu, hwu, hpop⟩ := execSeq_push_pop hr h
  have hkeep : KeepsStack u v := hw.keepsStack hu hwu
  refine ⟨?_, (hkeep.push_pop hpush hpop hb).sp⟩
  calc (t.reg rb).value
    _ = v.memRead v.sp := (pop_effect hrb hb hpop).2
    _ = u.memRead u.sp := by rw [hkeep.sp, hkeep.cells u.sp le_rfl]
    _ = _ := memRead_sp_of_push hs.memWf ha hpush

end Sys2Proof.Machine
end

section
/-! PROOFS. Control transfer (`43_control_transfer.md`): CALL, RET, JMP, JEQ and JNE, the return that follows a call,
and the conditional jumps that follow a comparison. -/

namespace Sys2Proof.Machine

variable {s t : State} {i : Instr}

/-! ### The register operand's checks -/

/-- A register operand that names a register passes its first check (R63). -/
theorem firstRaise_of_index {a : Byte} {ra : RegIndex} (ha : ra.val = a.toNat) (cs : List Check) :
    firstRaise (registerCheck a :: cs) = firstRaise cs :=
  firstRaise_passes (registerCheck_passes (toNat_lt_eight_of_index ha)) cs

/-- Reading an unwritten register is the first fault of a rule that begins with that operand (R24, R175). -/
theorem firstRaise_of_unwritten {a : Byte} {ra : RegIndex} (ha : ra.val = a.toNat) (hw : (s.reg ra).written = false)
    (cs : List Check) :
    firstRaise (registerCheck a :: writtenCheck s a :: cs) = some ⟨.unwrittenRegister, a.toNat⟩ :=
  (firstRaise_of_index ha _).trans (firstRaise_fails (writtenCheck_fails ha hw) cs)

/-! ### CALL and RET (R141, R142) -/

/-- CALL makes PUSH's checks; the last one is of the return address (R141). -/
theorem ruleChecks_call (a : Byte) (s : State) :
    ruleChecks (.call a) s = [registerCheck a, writtenCheck s a, pushCheck s.sp, addressCheck (s.pc.toNat + 2)] := rfl

/-- Settles O17: CALL commits its push and its jump where its four checks pass, and takes the first failing one's
fault. -/
theorem callPushesReturnAddress : Obligations.CallPushesReturnAddress := by
  refine ⟨fun a rest => decodeInvertsEncode (.call a) rest, fun a s hsp =>
    ⟨fun ha => exec_raise hsp (firstRaise_fails (registerCheck_fails ha) _), fun ra ha =>
      ⟨fun hw h1 h2 => ?completes, fun hw => exec_raise hsp (firstRaise_of_unwritten ha hw _),
        fun hw h0 => exec_raise hsp ?belowZero, fun hw h1 h2 => exec_raise hsp ?outOfRange⟩⟩⟩
  case completes =>
    have hslot : (BitVec.ofNat 8 (s.sp.toNat - 1)).toNat = s.sp.toNat - 1 :=
      toNat_ofNat_of_le (by have := s.sp.isLt; omega)
    exact exec_of_completes ⟨⟨_, _⟩, readPushOperand_ok.mpr ⟨ra, ha, hsp, hw, h1, rfl, rfl⟩, h2,
      congrArg (State.setPc · _) (pushByte_eq hslot _).symm⟩
  all_goals rw [ruleChecks_call, firstRaise_of_index ha, firstRaise_passes (writtenCheck_passes ha hw)]
  case belowZero => exact firstRaise_fails (pushCheck_fails h0) _
  case outOfRange =>
    rw [firstRaise_passes (pushCheck_passes h1)]
    exact firstRaise_fails (addressCheck_fails h2) _

/-- Settles O18: RET's one check, of the incremented SP, decides between its effect and its fault. -/
theorem retPopsProgramCounter : Obligations.RetPopsProgramCounter :=
  ⟨fun rest => decodeInvertsEncode .ret rest, fun _ hsp =>
    ⟨fun h => exec_of_completes ⟨hsp, Nat.le_of_succ_le_succ h, rfl⟩,
      fun h255 => exec_raise hsp (firstRaise_fails (popCheck_fails h255) _)⟩⟩

/-! ### The jumps (R143 to R145) -/

/-- Settles O19: the two checks of its operand, which do not involve SP, decide between the two faults and the jump. -/
theorem jmpSetsProgramCounter : Obligations.JmpSetsProgramCounter := by
  refine ⟨fun a rest => decodeInvertsEncode (.jmp a) rest, fun a s => ?_⟩
  have checks := (readOperand_makesChecks (s := s) a).bind fun v _ =>
    MakesChecks.ok (P := fun u => u.run = s.run) (a := s.setPc v) rfl
  exact ⟨fun ha => checks.commit_raise (firstRaise_fails (registerCheck_fails ha) _), fun ra ha =>
    ⟨fun hw => exec_of_completes ⟨_, readOperand_ok.mpr ⟨ra, ha, hw, rfl⟩, rfl⟩,
      fun hw => checks.commit_raise (firstRaise_of_unwritten ha hw _)⟩⟩

/-- What a conditional jump that is taken exactly on `flag = f` answers: `f` is 1 for JEQ and 0 for JNE (R144, R145). -/
theorem condJump_answers {taken f : Bool} (htaken : s.flag = f → taken = true) (hnot : s.flag = (!f) → taken = false)
    (a : Byte) :
    (8 ≤ a.toNat → commit s (s.condJump taken a) = .next (s.raise ⟨.badRegister, a.toNat⟩)) ∧
    ∀ ra : RegIndex, ra.val = a.toNat →
      (s.flag = f → (s.reg ra).written = true →
        commit s (s.condJump taken a) = .next { s with pc := (s.reg ra).value }) ∧
      (s.flag = f → (s.reg ra).written = false →
        commit s (s.condJump taken a) = .next (s.raise ⟨.unwrittenRegister, a.toNat⟩)) ∧
      (s.flag = (!f) → s.pc.toNat + 2 ≤ 255 →
        commit s (s.condJump taken a) = .next { s with pc := BitVec.ofNat 8 (s.pc.toNat + 2) }) ∧
      (s.flag = (!f) → 256 ≤ s.pc.toNat + 2 →
        commit s (s.condJump taken a) = .next (s.raise ⟨.pcOutOfRange, s.pc.toNat + 2⟩)) := by
  have checks := condJump_makesChecks (s := s) taken a
  refine ⟨fun ha => checks.commit_raise (firstRaise_fails (registerCheck_fails ha) _), fun ra ha =>
    ⟨fun hf hw => commit_eq_next.mpr (.inl (condJump_ok.mpr ⟨ra, checkReg_of_index ha, .inl ⟨htaken hf, hw, rfl⟩⟩)),
      fun hf hw => checks.commit_raise ?unwritten,
      fun hf h2 => commit_eq_next.mpr (.inl (condJump_ok.mpr ⟨ra, checkReg_of_index ha, .inr ⟨hnot hf, h2, rfl⟩⟩)),
      fun hf h2 => checks.commit_raise ?outOfRange⟩⟩
  case unwritten =>
    rw [htaken hf]
    exact firstRaise_of_unwritten ha hw _
  case outOfRange =>
    rw [hnot hf, firstRaise_of_index ha]
    exact firstRaise_fails (addressCheck_fails h2) _

/-- Settles O20: JEQ is the conditional jump on `flag = 1`. -/
theorem jeqJumpsIfFlagSet : Obligations.JeqJumpsIfFlagSet :=
  ⟨fun a rest => decodeInvertsEncode (.jeq a) rest, fun a s =>
    condJump_answers (taken := s.takesJeq) (f := true) id id a⟩

/-- Settles O21: JNE is the conditional jump on `flag = 0`. -/
theorem jneJumpsIfFlagClear : Obligations.JneJumpsIfFlagClear :=
  ⟨fun a rest => decodeInvertsEncode (.jne a) rest, fun a s =>
    condJump_answers (taken := s.takesJne) (f := false) (congrArg not) (congrArg not) a⟩

/-! ### A CALL and the RET it reaches (R147) -/

/-- CALL's opcode at `pc` decodes to a CALL (R65). -/
theorem fetchDecode_eq_call (h : s.fetchDecode = .ok i) (hop : s.memRead s.pc = 0x50#8) : ∃ a, i = .call a := by
  have hd := (fetchDecode_ok.mp h).1
  rw [show s.fetch.op = 0x50#8 from hop] at hd
  exact ⟨s.fetch.a, (Except.ok.inj hd).symm⟩

/-- RET's opcode at `pc` decodes to RET, at every address: it has no operand byte (R65, R85). -/
theorem fetchDecode_ret (hop : s.memRead s.pc = 0x11#8) : s.fetchDecode = .ok .ret := by
  refine fetchDecode_ok.mpr ⟨?_, Nat.le_of_lt_succ s.pc.isLt⟩
  rw [show s.fetch.op = 0x11#8 from hop]
  rfl

/-- A completed CALL moves SP down by one and leaves the return address on top of the stack (R141). -/
theorem call_effect {a : Byte} (hm : Memory.wf s.mem) (h : Completes (.call a) s t) :
    t.sp.toNat + 1 = s.sp.toNat ∧ (t.memRead t.sp).toNat = s.pc.toNat + 2 := by
  obtain ⟨p, hp, h2, rfl⟩ := h
  have hsp : ((s.pushByte p.slot (BitVec.ofNat 8 (s.pc.toNat + 2))).setPc p.value).sp = p.slot := by simp [State.sp]
  rw [hsp, State.setPc_memRead, pushByte_memRead_slot hm]
  exact ⟨toNat_succ_of_pushSlot (pushSlot_of_readPushOperand hp), toNat_ofNat_of_le h2⟩

/-- A completed RET takes the byte on top of the stack as `pc` and moves SP up by one (R142). -/
theorem ret_effect (h : Completes .ret s t) : t.sp.toNat = s.sp.toNat + 1 ∧ t.pc = s.memRead s.sp := by
  obtain ⟨-, h254, rfl⟩ := h
  exact ⟨by simpa [State.sp] using toNat_ofNat_of_le (Nat.succ_le_succ h254), rfl⟩

/-- Settles O46: CALL leaves the return address at the new SP, and RET takes it from there and moves SP up again. -/
theorem returnFollowsCall : Obligations.ReturnFollowsCall := by
  intro s t hs hr hop h ht hret
  obtain ⟨i, hi, hc⟩ := completes_of_step_running h hr ht
  obtain ⟨a, rfl⟩ := fetchDecode_eq_call hi hop
  obtain ⟨hdown, hpc⟩ := call_effect hs.memWf hc
  have h254 : t.sp.toNat ≤ 254 := by
    have := s.sp.isLt
    omega
  have hrc : Completes .ret t _ := ⟨hc.confined.written hs.spWritten, h254, rfl⟩
  obtain ⟨hup, hpop⟩ := ret_effect hrc
  exact ⟨_, (step_running ht (fetchDecode_ret hret)).trans (exec_of_completes hrc), ht,
    (congrArg BitVec.toNat hpop).trans hpc, BitVec.eq_of_toNat_eq (hup.trans hdown)⟩

/-! ### A CMP and the conditional jumps after it (R147) -/

/-- A completed CMP leaves the flag that says whether the two values are equal (R103). -/
theorem flag_of_cmp {a b : Byte} {ra rb : RegIndex} (ha : ra.val = a.toNat) (hb : rb.val = b.toNat)
    (h : Completes (.cmp a b) s t) : t.flag = decide ((s.reg ra).value = (s.reg rb).value) := by
  obtain ⟨p, hp, -, rfl⟩ := h
  obtain ⟨hdest, -, hva, r, hrb, -, hvb⟩ := readPair_ok.mp hp
  obtain rfl : p.dest = ra := Fin.ext (hdest.trans ha.symm)
  obtain rfl : r = rb := Fin.ext (hrb.trans hb.symm)
  rw [← hva, ← hvb]
  rfl

/-- Settles O47: CMP keeps the registers and sets the flag, by which one of JEQ and JNE jumps and the other falls
through. -/
theorem conditionalJumpsFollowCompare : Obligations.ConditionalJumpsFollowCompare := by
  intro a b c s t ra rb rc ha hb hc h hf hw h2
  have hcmp := completes_of_faultFree h hf
  have hflag := flag_of_cmp ha hb hcmp
  have hreg : t.reg rc = s.reg rc := hcmp.confined.reg_eq id
  obtain ⟨jeqJumps, -, jeqFalls, -⟩ := (jeqJumpsIfFlagSet.2 c t).2 rc hc
  obtain ⟨jneJumps, -, jneFalls, -⟩ := (jneJumpsIfFlagClear.2 c t).2 rc hc
  rw [hreg] at jeqJumps jneJumps
  refine ⟨fun heq => ?equal, fun hne => ?unequal⟩
  case equal =>
    have hset : t.flag = true := hflag.trans (decide_eq_true heq)
    exact ⟨jeqJumps hset hw, jneFalls hset h2⟩
  case unequal =>
    have hclear : t.flag = false := hflag.trans (decide_eq_false hne)
    exact ⟨jneJumps hclear hw, jeqFalls hclear h2⟩

end Sys2Proof.Machine
end

section
/-! PROOFS. Output and halt (`44_output_halt.md`): PRN and HLT. -/

namespace Sys2Proof.Machine

variable {s : State}

/-- PRN makes its operand's two checks and then the fall-through check; SP is not among what it reads (R160). -/
theorem execPrn_makesChecks (a : Byte) :
    MakesChecks [registerCheck a, writtenCheck s a, addressCheck (s.pc.toNat + 2)] (fun t => t.run = s.run)
      (do
        let v ← s.readOperand a
        let np ← s.fallthrough 1
        .ok ((s.emit v).setPc np)) :=
  (readOperand_makesChecks a).thenFallthrough 1 fun _ _ => rfl

/-- Settles O22: PRN emits the value where its three checks pass, and takes the first failing one's fault. -/
theorem prnAppendsRegisterValue : Obligations.PrnAppendsRegisterValue := by
  refine ⟨fun a rest => decodeInvertsEncode (.prn a) rest, fun a s => ?_⟩
  have checks := execPrn_makesChecks (s := s) a
  refine ⟨fun ha => checks.commit_raise (firstRaise_fails (registerCheck_fails ha) _), fun ra ha =>
    ⟨fun hw h2 => exec_of_completes ⟨_, readOperand_ok.mpr ⟨ra, ha, hw, rfl⟩, h2, rfl⟩,
      fun hw => checks.commit_raise (firstRaise_of_unwritten ha hw _),
      fun hw h2 => checks.commit_raise ?outOfRange⟩⟩
  case outOfRange =>
    rw [firstRaise_of_index ha, firstRaise_passes (writtenCheck_passes ha hw)]
    exact firstRaise_fails (addressCheck_fails h2) _

/-- Settles O23: HLT's rule makes no check, so in every state it runs to its end. -/
theorem hltHaltsAndKeepsState : Obligations.HltHaltsAndKeepsState :=
  ⟨fun rest => decodeInvertsEncode .hlt rest, fun _ => exec_of_completes (i := .hlt) rfl⟩

end Sys2Proof.Machine
end

section
/-! PROOFS. Exceptions (`60_exceptions.md`): what taking a fault commits, and which fault an instruction and a step
take (R172, R175, R177). -/

namespace Sys2Proof.Machine

variable {s t : State} {i : Instr}

/-- Settles O24: each clause is the definition's own equation. -/
theorem takingFaultCommitsOnlyRun : Obligations.TakingFaultCommitsOnlyRun :=
  ⟨fun _ _ => rfl, rfl, rfl, rfl, rfl, rfl, rfl⟩

/-- Settles O26: `exec_firstRaise` gives the two cases, and the table's answer tells which one holds. -/
theorem instructionsFaultExactlyByTable : Obligations.InstructionsFaultExactlyByTable := by
  intro i s hsp
  obtain ⟨r, hfirst, hfault⟩ | ⟨hfirst, hdone⟩ := exec_firstRaise hsp i
  · rw [hfirst]
    exact ⟨fun _ hr => Option.some.inj hr ▸ hfault, nofun⟩
  · rw [hfirst]
    exact ⟨nofun, fun _ => hdone⟩

/-- A rule that completes from a running state leaves the core running or halted (R172). -/
theorem faultFree_of_completed (hr : s.run = .running) (ht : t.run = if i = .hlt then .halted else s.run) :
    t.faultFree := by
  intro rec hrec
  by_cases hi : i = .hlt
  · simp [ht, hi] at hrec
  · simp [ht, hi, hr] at hrec

/-- Settles O27: decode and the operand check raise items 1 and 2; past them the instruction's own checks decide. -/
theorem stepReportsFirstFault : Obligations.StepReportsFirstFault := by
  intro s hr hsp
  cases hd : s.fetchDecode with
  | error r =>
    rw [stepRaise_of_fetchDecode_error hd]
    exact ⟨fun _ h => Option.some.inj h ▸ step_raises hr hd, nofun⟩
  | ok i =>
    rw [stepRaise_of_fetchDecode_ok hd, step_running hr hd]
    obtain ⟨faults, completes⟩ := instructionsFaultExactlyByTable i s hsp
    exact ⟨faults, fun h => (completes h).imp fun _ ⟨hstep, ht⟩ => ⟨hstep, faultFree_of_completed hr ht⟩⟩

end Sys2Proof.Machine
end

section
/-! PROOFS. Reset and hazards (`70_reset_and_hazards.md`): the memory an image load leaves (R192, R193), and a run under
a step budget (R198, R199). -/

namespace Sys2Proof.Machine

variable {s t : State}

/-! ### The image load -/

/-- Placing an image changes no cell outside the addresses it covers (R46). -/
theorem Memory.read_place_of_outside (m : Memory) {addr x : Nat} {img : List Byte}
    (hx : x < addr ∨ addr + img.length ≤ x) : Memory.read (Memory.place m addr img) x = Memory.read m x := by
  induction img generalizing m addr with
  | nil => rfl
  | cons v vs ih =>
    simp only [List.length_cons] at hx
    rw [Memory.place, ih _ (by omega), Memory.read_write_other m v (by omega)]

/-- Byte `k` of an image that fits is read at the `k`-th address from the first (R46, R192). -/
theorem Memory.read_place {m : Memory} {addr k : Nat} {img : List Byte} (hm : Memory.wf m)
    (hfit : addr + img.length ≤ Config.memorySize) (hk : k < img.length) :
    Memory.read (Memory.place m addr img) (addr + k) = img[k] := by
  induction img generalizing m addr k with
  | nil => exact absurd hk (Nat.not_lt_zero k)
  | cons v vs ih =>
    rw [List.length_cons] at hfit
    cases k with
    | zero =>
      have hread := Memory.read_place_of_outside (Memory.write m addr v) (img := vs) (.inl (Nat.lt_succ_self addr))
      exact hread.trans ((Memory.read_write hm addr v addr).trans (if_pos rfl))
    | succ k =>
      have hwrite : Memory.wf (Memory.write m addr v) := Memory.write_wf v hm (by omega)
      have hread := ih (addr := addr + 1) hwrite (by omega) (Nat.lt_of_succ_lt_succ hk)
      rw [Nat.add_right_comm] at hread
      exact hread

theorem loadImage_of_fits {img : List Byte} (h : img.length ≤ 256) :
    loadImage img = .next { State.reset with mem := Memory.place State.reset.mem 0 img } :=
  if_neg (Nat.not_lt.mpr h)

theorem loadImage_of_too_long {img : List Byte} (h : 256 < img.length) :
    loadImage img = .refused (.imageTooLong img.length) :=
  if_pos h

/-- Settles O52: the load is reset with the image placed from address 0 on, and the byte 0 that the empty image leaves
at `pc` is no opcode. -/
theorem imageLoadStartsRun : Obligations.ImageLoadStartsRun := by
  refine ⟨fun img hlen => ?fits, fun _ => loadImage_of_too_long, ?empty⟩
  case fits =>
    obtain ⟨hsp, hregs, hpc, hflag, -, hrun, hout⟩ := resetLeavesSpecValues
    refine ⟨_, loadImage_of_fits hlen, fun k hk => ?_, fun k hk hk256 => ?_, hrun, hpc, hflag, hout, hsp,
      fun i hi => hregs i (Fin.ne_of_lt hi)⟩
    · rw [State.memRead, toNat_ofNat_of_le (by omega)]
      simpa using Memory.read_place (addr := 0) invariantAtReset.memWf (by simpa using hlen) hk
    · rw [State.memRead, toNat_ofNat_of_le (by omega)]
      exact Memory.read_place_of_outside State.reset.mem (.inr (by omega))
  case empty =>
    have hop : illegalOpcode (State.reset.memRead State.reset.pc) := by
      unfold illegalOpcode
      decide
    exact ⟨_, _, loadImage_of_fits (Nat.zero_le _), unknownOpcodeEndsRun State.reset rfl hop, rfl⟩

/-! ### The step budget -/

theorem State.ended_iff : s.ended = true ↔ s.run ≠ .running := by
  unfold State.ended
  split <;> simp [*]

/-- A state that has ended is reported under every budget (R199). -/
theorem runFor_of_ended (hs : s.run ≠ .running) (n : Nat) : runFor n s = .ended s := by
  cases n <;> exact if_pos (State.ended_iff.mpr hs)

theorem runFor_zero_of_running (hs : s.run = .running) : runFor 0 s = .notEnded s :=
  if_neg fun h => State.ended_iff.mp h hs

/-- A running core spends one step of the budget and goes on from the state that step answers (R198). -/
theorem runFor_succ_of_running (hs : s.run = .running) (h : step s = .next t) (n : Nat) :
    runFor (n + 1) s = runFor n t := by
  have hne : ¬ s.ended = true := fun h => State.ended_iff.mp h hs
  rw [runFor, if_neg hne, h]

/-- A run under a budget has ended, and then every larger budget reports the same state, or it is still running (R198,
R199). -/
theorem runFor_cases (n : Nat) (s : State) :
    (∃ t, t.run ≠ .running ∧ ∀ k, runFor (n + k) s = .ended t) ∨
      ∃ t, t.run = .running ∧ runFor n s = .notEnded t := by
  induction n generalizing s with
  | zero =>
    by_cases hs : s.run = .running
    · exact .inr ⟨s, hs, runFor_zero_of_running hs⟩
    · exact .inl ⟨s, hs, fun k => runFor_of_ended hs _⟩
  | succ n ih =>
    by_cases hs : s.run = .running
    · obtain ⟨u, hu⟩ := stepAlwaysAnswersState s
      obtain ⟨t, ht, hended⟩ | ⟨t, ht, hout⟩ := ih u
      · refine .inl ⟨t, ht, fun k => ?_⟩
        rw [Nat.succ_add, runFor_succ_of_running hs hu, hended]
      · exact .inr ⟨t, ht, (runFor_succ_of_running hs hu n).trans hout⟩
    · exact .inl ⟨s, hs, fun k => runFor_of_ended hs _⟩

/-- Settles O54: the budget's report tells which case of `runFor_cases` holds. -/
theorem runBudgetOnlyDelaysTheEnd : Obligations.RunBudgetOnlyDelaysTheEnd := by
  intro n s t
  obtain ⟨u, hu, hended⟩ | ⟨u, hu, hout⟩ := runFor_cases n s
  · have hn : runFor n s = .ended u := hended 0
    rw [hn]
    exact ⟨fun h => RunReport.ended.inj h ▸ ⟨hu, hended⟩, nofun⟩
  · rw [hout]
    exact ⟨nofun, fun h => RunReport.notEnded.inj h ▸ hu⟩

end Sys2Proof.Machine
end
